-- ==== Sys2Proof/Word.lean ====
section
/-! DEFINITION. Words: the signed integers of spec/00_scope.md R6 and R11, and the range a width gives them.

The type of words is Lean's `Int`: every value of the spec is a mathematical integer (R11), and no rule looks at a
word's binary representation (R12, R38). That a stored value lies in the range of the machine's width is the predicate
`Word.Fits`, which every step keeps (log entry 1). -/

namespace Sys2Proof

/-- The least word of width `width`: `-2^(W-1)` (R11). -/
def minWord (width : Nat) : Int := -((2 ^ (width - 1) : Nat) : Int)

/-- The greatest word of width `width`: `2^(W-1) - 1` (R11). -/
def maxWord (width : Nat) : Int := ((2 ^ (width - 1) : Nat) : Int) - 1

/-- `v` is a word of width `width` (R11). -/
abbrev Word.Fits (width : Nat) (v : Int) : Prop := minWord width ≤ v ∧ v ≤ maxWord width

end Sys2Proof
end

