-- ==== Sys2Proof/Operator.lean ====
section
/-! DEFINITION. The decoder's output as the spec gives it: modes, instruction kinds, the Operator, formats and the
names of the decoder's rejections (spec/00_scope.md R18, spec/30_encoding.md R55, R60, R65). -/

namespace Sys2Proof

/-- An addressing mode (R18). -/
inductive Mode where
  /-- "the parameter is a memory index to dereference" -/
  | position
  /-- "the parameter is the value itself" -/
  | immediate
  deriving DecidableEq, Repr

/-- An instruction kind: the closed set of ten names of R18. -/
inductive Kind where
  | add
  | multiply
  | input
  | output
  | jumpIfTrue
  | jumpIfFalse
  | lessThan
  | equals
  | halt
  | unknown
  deriving DecidableEq, Repr

/-- The transient decoded value `{ kind, mode1, mode2, mode3 }` (R18, R55). It is not state (R32). -/
structure Operator where
  kind : Kind
  mode1 : Mode
  mode2 : Mode
  mode3 : Mode
  deriving DecidableEq, Repr

/-- The role of a parameter in a format (R60): read, or destination. -/
inductive Role where
  | read
  | dest
  deriving DecidableEq, Repr

/-- The five instruction formats of R60. -/
inductive Format where
  | f0
  | f1d
  | f1r
  | f2rr
  | f3rrd
  deriving DecidableEq, Repr

/-- Why a word is no instruction: the two ways a word decodes as Unknown (R65). Executing either raises DecodeFault. -/
inductive DecodeReject where
  /-- The word is negative (R58). -/
  | negativeWord
  /-- The word's opcode `w mod 100` is 0 or in 9 to 98 (R65). -/
  | unknownOpcode
  deriving DecidableEq, Repr

end Sys2Proof
end

