-- ==== Sys2Proof/Syntax.lean ====
section
/-! DEFINITION. The instructions: one constructor per row of spec/opcode_table.json. -/

namespace Sys2Proof

/-- An instruction: its kind, with the decoded mode of each parameter it has, destinations included (R55, R60, R62).
Its parameter words stay in memory and are read by the step that executes it (R48, R74; log entry 13). The Unknown kind
is no row of the table and no constructor: the step raises its fault (R96; log entry 14). -/
inductive Instr where
  /-- ADD, opcode 1 (R83). -/
  | add (m1 m2 m3 : Mode)
  /-- MUL, opcode 2 (R84). -/
  | mul (m1 m2 m3 : Mode)
  /-- IN, opcode 3 (R88). -/
  | input (m1 : Mode)
  /-- OUT, opcode 4 (R89). -/
  | output (m1 : Mode)
  /-- JT, opcode 5 (R91). -/
  | jumpIfTrue (m1 m2 : Mode)
  /-- JF, opcode 6 (R92). -/
  | jumpIfFalse (m1 m2 : Mode)
  /-- LT, opcode 7 (R93). -/
  | lessThan (m1 m2 m3 : Mode)
  /-- EQ, opcode 8 (R94). -/
  | equals (m1 m2 m3 : Mode)
  /-- HLT, opcode 99 (R95). -/
  | halt
  deriving DecidableEq, Repr

end Sys2Proof
end

