-- ==== Sys2Proof/Assembly.lean ====
section
/-! DEFINITION. The abstract form of the spec's assembler language (spec/30_encoding.md R67 to R69): what can be
written, before it becomes words. The language is the spec's own and changes no machine rule (D15). -/

namespace Sys2Proof

/-- The value part of an operand: a decimal integer, or a label standing for the index of the next word (R67). -/
inductive AsmValue where
  | lit (v : Int)
  | label (name : String)
  deriving DecidableEq, Repr

/-- An operand: `#v` (Immediate) or `[v]` (Position), R67. -/
inductive AsmOperand where
  | imm (v : AsmValue)
  | pos (v : AsmValue)
  deriving DecidableEq, Repr

/-- An instruction with its operands, in the order of R67's table. -/
inductive AsmInstr where
  | add (a b d : AsmOperand)
  | mul (a b d : AsmOperand)
  | input (d : AsmOperand)
  | output (a : AsmOperand)
  | jumpIfTrue (a t : AsmOperand)
  | jumpIfFalse (a t : AsmOperand)
  | lessThan (a b d : AsmOperand)
  | equals (a b d : AsmOperand)
  | halt
  deriving DecidableEq, Repr

/-- One line of assembly: an instruction, one of the three pseudo-instructions of R69, data, or a label. -/
inductive AsmLine where
  | instr (i : AsmInstr)
  /-- `JMP t` (R69). -/
  | jmp (t : AsmOperand)
  /-- `MOV a, [d]` (R69). -/
  | mov (a d : AsmOperand)
  /-- `NOP3` (R69). -/
  | nop3
  /-- `.word v` (R67). -/
  | word (v : AsmValue)
  /-- `name:` (R67). -/
  | label (name : String)
  deriving DecidableEq, Repr

end Sys2Proof
end

