-- ==== Sys2Proof/Config.lean ====
section
/-! DEFINITION. The implementation parameters of spec/00_scope.md R6 to R10. The spec leaves them open, so a machine
carries its own (`State.params`) and a statement about every state is about every value of them. -/

namespace Sys2Proof

/-- `JUMP_TARGET_READ` (R8, D6): whether a conditional jump that is not taken resolves its target. -/
inductive JumpTargetRead where
  | lazy
  | eager
  deriving DecidableEq, Repr

/-- `INPUT_ORDER` (R9, D7): whether Input pulls its value before or after it resolves its destination. -/
inductive InputOrder where
  | pullFirst
  | resolveFirst
  deriving DecidableEq, Repr

/-- The parameters of one machine, fixed when it is constructed (R10). -/
structure Params where
  /-- The word width `W` (R6, D1). -/
  width : Nat
  /-- The jump-target read policy (R8, D6). -/
  jumpTargetRead : JumpTargetRead
  /-- The input ordering policy (R9, D7). -/
  inputOrder : InputOrder
  deriving DecidableEq, Repr

/-- The largest `N` a machine of this width may have: `2^(W-1) - 4` (R7, D12). -/
def Params.maxSize (p : Params) : Nat := 2 ^ (p.width - 1) - 4

/-- The parameters State.reset takes: `W = 32` (DESIGN CHOICE, log entry 2) and the spec's defaults of the two policies
(DESIGN CHOICE, log entries 3 and 4). -/
def Config.resetParams : Params := ⟨32, .lazy, .pullFirst⟩

/-- How many bits of a numbered instruction (`decodeTableWord`) make one word (DESIGN CHOICE, log entry 11): the least
width the spec allows, so that the word fits every machine. -/
def Config.tableWordBits : Nat := 32

end Sys2Proof
end

