-- ==== Sys2Proof/WellFormed.lean ====
section
/-! DEFINITION. What is well formed: parameters, program images, input values, instructions and assembly operands.
A word whose instruction is not well formed still executes (spec/30_encoding.md R62); it is only not canonical. -/

namespace Sys2Proof

/-- The width the spec allows: `W >= 32` (R6, D1). -/
def Params.wellFormed (p : Params) : Bool := decide (32 ≤ p.width)

/-- Every value is a word of the machine's width: what the host owes for a program and for input (D13, R110). -/
def wordsWellFormed (width : Nat) (ws : List Int) : Bool := ws.all fun v => decide (Word.Fits width v)

/-- A program the host may construct a machine from: `N <= 2^(W-1) - 4` (R7, D12) and every word fits (R52, D13). -/
def programWellFormed (p : Params) (prog : List Int) : Bool :=
  decide (prog.length ≤ p.maxSize) && wordsWellFormed p.width prog

/-- The instruction is one the assembler writes: every destination's mode is Position, since `#v` is refused in a
destination (R67) and a destination's mode digit is 0 in the canonical word (R66, R68). -/
def Instr.wellFormed : Instr → Bool
  | .add _ _ m3 => decide (m3 = .position)
  | .mul _ _ m3 => decide (m3 = .position)
  | .input m1 => decide (m1 = .position)
  | .output _ => true
  | .jumpIfTrue _ _ => true
  | .jumpIfFalse _ _ => true
  | .lessThan _ _ m3 => decide (m3 = .position)
  | .equals _ _ m3 => decide (m3 = .position)
  | .halt => true

/-- A value that is a decimal integer fits in `W` bits (R67). A label's index is checked when it is resolved. -/
def AsmValue.wellFormed (width : Nat) : AsmValue → Bool
  | .lit v => decide (Word.Fits width v)
  | .label _ => true

/-- The operand's value is well formed. -/
def AsmOperand.wellFormed (width : Nat) : AsmOperand → Bool
  | .imm v => v.wellFormed width
  | .pos v => v.wellFormed width

/-- The operand may stand for a destination: it is written `[v]`, and `#v` is refused (R67). -/
def AsmOperand.destWellFormed (width : Nat) : AsmOperand → Bool
  | .imm _ => false
  | .pos v => v.wellFormed width

/-- Every operand is one R67 allows in its place. -/
def AsmInstr.wellFormed (width : Nat) : AsmInstr → Bool
  | .add a b d => a.wellFormed width && b.wellFormed width && d.destWellFormed width
  | .mul a b d => a.wellFormed width && b.wellFormed width && d.destWellFormed width
  | .input d => d.destWellFormed width
  | .output a => a.wellFormed width
  | .jumpIfTrue a t => a.wellFormed width && t.wellFormed width
  | .jumpIfFalse a t => a.wellFormed width && t.wellFormed width
  | .lessThan a b d => a.wellFormed width && b.wellFormed width && d.destWellFormed width
  | .equals a b d => a.wellFormed width && b.wellFormed width && d.destWellFormed width
  | .halt => true

/-- Every operand of the line is one R67 and R69 allow in its place. -/
def AsmLine.wellFormed (width : Nat) : AsmLine → Bool
  | .instr i => i.wellFormed width
  | .jmp t => t.wellFormed width
  | .mov a d => a.wellFormed width && d.destWellFormed width
  | .nop3 => true
  | .word v => v.wellFormed width
  | .label _ => true

end Sys2Proof
end

