-- ==== Sys2Proof/Decode.lean ====
section
/-! DEFINITION. The decoder, then the encoder, the numbered form the opcode table is asked in, and the assembler and
disassembler, all from spec/30_encoding.md. The encoding is decimal (spec/00_scope.md R12). -/

namespace Sys2Proof

/-! ## The instruction decoder (R54 to R58) -/

/-- `digit(w, i) = (w div 10^i) mod 10`; a position above the most significant digit gives 0 (R12). -/
def digit (w i : Nat) : Nat := w / 10 ^ i % 10

/-- A mode digit: 1 is Immediate, every other digit is Position (R57). -/
def modeOf (d : Nat) : Mode := if d = 1 then .immediate else .position

/-- The kind an opcode value `w mod 100` names (R55, R56). -/
def kindOf (opcode : Nat) : Kind :=
  match opcode with
  | 1 => .add
  | 2 => .multiply
  | 3 => .input
  | 4 => .output
  | 5 => .jumpIfTrue
  | 6 => .jumpIfFalse
  | 7 => .lessThan
  | 8 => .equals
  | 99 => .halt
  | _ => .unknown

/-- `decode` of R55: pure and total. A negative word is Unknown with all modes Position (R58). -/
def decode (w : Int) : Operator :=
  if w < 0 then ⟨.unknown, .position, .position, .position⟩
  else ⟨kindOf (w.toNat % 100), modeOf (digit w.toNat 2), modeOf (digit w.toNat 3), modeOf (digit w.toNat 4)⟩

/-- The instruction an Operator selects: the modes of the parameters its kind has (R59, R63); none for Unknown. -/
def Operator.instr? (op : Operator) : Option Instr :=
  match op.kind with
  | .add => some (.add op.mode1 op.mode2 op.mode3)
  | .multiply => some (.mul op.mode1 op.mode2 op.mode3)
  | .input => some (.input op.mode1)
  | .output => some (.output op.mode1)
  | .jumpIfTrue => some (.jumpIfTrue op.mode1 op.mode2)
  | .jumpIfFalse => some (.jumpIfFalse op.mode1 op.mode2)
  | .lessThan => some (.lessThan op.mode1 op.mode2 op.mode3)
  | .equals => some (.equals op.mode1 op.mode2 op.mode3)
  | .halt => some .halt
  | .unknown => none

/-- The instruction a word is, or the name of why it is none (R65). -/
def decodeInstr (w : Int) : Except DecodeReject Instr :=
  match (decode w).instr? with
  | some i => .ok i
  | none => if w < 0 then .error .negativeWord else .error .unknownOpcode

/-! ## The encoder (R59, R60, R68) -/

/-- The digit the canonical encoding gives a mode: `m_k = 1` for a `#` operand and 0 otherwise (R68). -/
def Mode.toDigit : Mode → Nat
  | .position => 0
  | .immediate => 1

/-- The opcode value of each row of the table (R56, R59). -/
def Instr.opcode : Instr → Nat
  | .add _ _ _ => 1
  | .mul _ _ _ => 2
  | .input _ => 3
  | .output _ => 4
  | .jumpIfTrue _ _ => 5
  | .jumpIfFalse _ _ => 6
  | .lessThan _ _ _ => 7
  | .equals _ _ _ => 8
  | .halt => 99

/-- The Operator whose instruction this is, with Position for every absent parameter (R55, R68). -/
def Instr.operator : Instr → Operator
  | .add m1 m2 m3 => ⟨.add, m1, m2, m3⟩
  | .mul m1 m2 m3 => ⟨.multiply, m1, m2, m3⟩
  | .input m1 => ⟨.input, m1, .position, .position⟩
  | .output m1 => ⟨.output, m1, .position, .position⟩
  | .jumpIfTrue m1 m2 => ⟨.jumpIfTrue, m1, m2, .position⟩
  | .jumpIfFalse m1 m2 => ⟨.jumpIfFalse, m1, m2, .position⟩
  | .lessThan m1 m2 m3 => ⟨.lessThan, m1, m2, m3⟩
  | .equals m1 m2 m3 => ⟨.equals, m1, m2, m3⟩
  | .halt => ⟨.halt, .position, .position, .position⟩

/-- The opcode word `opcode + 100*m1 + 1000*m2 + 10000*m3` (R68). The parameter words follow it in memory. -/
def encode (i : Instr) : Int :=
  ((i.opcode + 100 * i.operator.mode1.toDigit + 1000 * i.operator.mode2.toDigit
    + 10000 * i.operator.mode3.toDigit : Nat) : Int)

/-- The format of a kind (R60). -/
def Kind.format : Kind → Format
  | .add => .f3rrd
  | .multiply => .f3rrd
  | .input => .f1d
  | .output => .f1r
  | .jumpIfTrue => .f2rr
  | .jumpIfFalse => .f2rr
  | .lessThan => .f3rrd
  | .equals => .f3rrd
  | .halt => .f0
  | .unknown => .f0

/-- The roles of a format's parameters, in order (R60). -/
def Format.roles : Format → List Role
  | .f0 => []
  | .f1d => [.dest]
  | .f1r => [.read]
  | .f2rr => [.read, .read]
  | .f3rrd => [.read, .read, .dest]

/-- `len(kind)`: one opcode word and one word a parameter (R53, R59); Halt and Unknown are one word (D21). -/
def Kind.len (k : Kind) : Nat := 1 + k.format.roles.length

/-- The length of an instruction in words (R59, R64). -/
def Instr.len (i : Instr) : Nat := i.operator.kind.len

/-! ## Numbered instructions, as spec/opcode_table.json is asked about

The table gives no bits: its encodings are decimal. Log entry 11 says how a number stands for an instruction's words. -/

/-- A field of `bits` bits read as a signed word in two's complement. -/
def signedField (bits field : Nat) : Int :=
  if field < 2 ^ (bits - 1) then (field : Int) else (field : Int) - ((2 ^ bits : Nat) : Int)

/-- The four words of a numbered instruction, the first word in its lowest bits; the bits from `nbits` up are 0. -/
def tableWords (nbits w : Nat) : List Int :=
  [0, 1, 2, 3].map fun k =>
    signedField Config.tableWordBits (w % 2 ^ nbits / 2 ^ (Config.tableWordBits * k) % 2 ^ Config.tableWordBits)

/-- The instruction the decoder reads from a numbered instruction: its first word decides alone (R64). -/
def decodeTableWord (nbits w : Nat) : Option Instr :=
  match tableWords nbits w with
  | first :: _ => (decodeInstr first).toOption
  | [] => none

/-! ## The assembler and the disassembler (R67 to R69)

They write and read programs; the machine does not use them (D15). Log entry 15. -/

/-- The mode an operand is written in (R67). -/
def AsmOperand.mode : AsmOperand → Mode
  | .imm _ => .immediate
  | .pos _ => .position

/-- The value of an operand. -/
def AsmOperand.value : AsmOperand → AsmValue
  | .imm v => v
  | .pos v => v

/-- The instruction an assembly instruction assembles to. -/
def AsmInstr.instr : AsmInstr → Instr
  | .add a b d => .add a.mode b.mode d.mode
  | .mul a b d => .mul a.mode b.mode d.mode
  | .input d => .input d.mode
  | .output a => .output a.mode
  | .jumpIfTrue a t => .jumpIfTrue a.mode t.mode
  | .jumpIfFalse a t => .jumpIfFalse a.mode t.mode
  | .lessThan a b d => .lessThan a.mode b.mode d.mode
  | .equals a b d => .equals a.mode b.mode d.mode
  | .halt => .halt

/-- The operands, in parameter order. -/
def AsmInstr.operands : AsmInstr → List AsmOperand
  | .add a b d => [a, b, d]
  | .mul a b d => [a, b, d]
  | .input d => [d]
  | .output a => [a]
  | .jumpIfTrue a t => [a, t]
  | .jumpIfFalse a t => [a, t]
  | .lessThan a b d => [a, b, d]
  | .equals a b d => [a, b, d]
  | .halt => []

/-- The pseudo-instructions expanded (R69); every other line stands for itself. -/
def AsmLine.expand : AsmLine → AsmLine
  | .instr i => .instr i
  | .jmp t => .instr (.jumpIfTrue (.imm (.lit 1)) t)
  | .mov a d => .instr (.add a (.imm (.lit 0)) d)
  | .nop3 => .instr (.jumpIfTrue (.imm (.lit 0)) (.imm (.lit 0)))
  | .word v => .word v
  | .label name => .label name

/-- How many words a line occupies. -/
def AsmLine.size (l : AsmLine) : Nat :=
  match l.expand with
  | .instr i => i.instr.len
  | .word _ => 1
  | _ => 0

/-- Each label with "the index of the next word" (R67), counting from `start`. -/
def labelTable (start : Nat) : List AsmLine → List (String × Nat)
  | [] => []
  | .label name :: rest => (name, start) :: labelTable start rest
  | l :: rest => labelTable (start + l.size) rest

/-- A value as a word: a label is the index it stands for, and an undefined label has none. -/
def AsmValue.resolve (labels : List (String × Nat)) : AsmValue → Option Int
  | .lit v => some v
  | .label name => (labels.lookup name).map fun i => (i : Int)

/-- The parameter words of a list of operands, none where one is an undefined label. -/
def resolveOperands (labels : List (String × Nat)) : List AsmOperand → Option (List Int)
  | [] => some []
  | o :: os =>
    match o.value.resolve labels, resolveOperands labels os with
    | some v, some vs => some (v :: vs)
    | _, _ => none

/-- The words of an instruction: its opcode word followed by its parameter words (R68). -/
def AsmInstr.words (labels : List (String × Nat)) (i : AsmInstr) : Option (List Int) :=
  (resolveOperands labels i.operands).map fun ps => encode i.instr :: ps

/-- The words of a line. -/
def AsmLine.words (labels : List (String × Nat)) (l : AsmLine) : Option (List Int) :=
  match l.expand with
  | .instr i => i.words labels
  | .word v => (v.resolve labels).map fun w => [w]
  | _ => some []

/-- The words of the lines one after another, none where a line has none. -/
def linesWords (labels : List (String × Nat)) : List AsmLine → Option (List Int)
  | [] => some []
  | l :: ls =>
    match l.words labels, linesWords labels ls with
    | some ws, some rest => some (ws ++ rest)
    | _, _ => none

/-- The words of a program, or none where a line is not well formed, a label is undefined or defined twice, or a word
does not fit in `width` bits (R67, R68, D13). -/
def assemble (width : Nat) (lines : List AsmLine) : Option (List Int) :=
  let labels := labelTable 0 lines
  if lines.all (·.wellFormed width) && decide (labels.map Prod.fst).Nodup then
    match linesWords labels lines with
    | some ws => if wordsWellFormed width ws then some ws else none
    | none => none
  else none

/-- A parameter word as a read operand in its mode. -/
def Mode.operand (m : Mode) (v : Int) : AsmOperand :=
  match m with
  | .position => .pos (.lit v)
  | .immediate => .imm (.lit v)

/-- An instruction with the parameter words that follow it, and the words after them; none where too few follow. A
destination is always written `[v]` (R67). -/
def Instr.withParams (i : Instr) (ws : List Int) : Option (AsmInstr × List Int) :=
  let three (c : AsmOperand → AsmOperand → AsmOperand → AsmInstr) (m1 m2 : Mode) :=
    match ws with
    | a :: b :: d :: rest => some (c (m1.operand a) (m2.operand b) (.pos (.lit d)), rest)
    | _ => none
  let two (c : AsmOperand → AsmOperand → AsmInstr) (m1 m2 : Mode) :=
    match ws with
    | a :: b :: rest => some (c (m1.operand a) (m2.operand b), rest)
    | _ => none
  let one (c : AsmOperand → AsmInstr) (m1 : Mode) :=
    match ws with
    | a :: rest => some (c (m1.operand a), rest)
    | _ => none
  match i with
  | .add m1 m2 _ => three .add m1 m2
  | .mul m1 m2 _ => three .mul m1 m2
  | .input _ => one .input .position
  | .output m1 => one .output m1
  | .jumpIfTrue m1 m2 => two .jumpIfTrue m1 m2
  | .jumpIfFalse m1 m2 => two .jumpIfFalse m1 m2
  | .lessThan m1 m2 _ => three .lessThan m1 m2
  | .equals m1 m2 _ => three .equals m1 m2
  | .halt => some (.halt, ws)

/-- The line at the cursor and the words after it (R68). An Unknown word is `.word w`, and so is an opcode word whose
parameters run past the end (log entry 15). -/
def disassembleOne : List Int → Option (AsmLine × List Int)
  | [] => none
  | w :: rest =>
    match decodeInstr w with
    | .error _ => some (.word (.lit w), rest)
    | .ok i =>
      match i.withParams rest with
      | some (a, rest') => some (.instr a, rest')
      | none => some (.word (.lit w), rest)

/-- Up to `fuel` lines from the cursor on. -/
def disassembleUpTo : Nat → List Int → List AsmLine
  | 0, _ => []
  | fuel + 1, ws =>
    match disassembleOne ws with
    | none => []
    | some (l, rest) => l :: disassembleUpTo fuel rest

/-- The lines of a word list: each line takes at least one word (R68). -/
def disassemble (ws : List Int) : List AsmLine := disassembleUpTo ws.length ws

/-- The mnemonic of R67. -/
def AsmInstr.mnemonic : AsmInstr → String
  | .add _ _ _ => "ADD"
  | .mul _ _ _ => "MUL"
  | .input _ => "IN"
  | .output _ => "OUT"
  | .jumpIfTrue _ _ => "JT"
  | .jumpIfFalse _ _ => "JF"
  | .lessThan _ _ _ => "LT"
  | .equals _ _ _ => "EQ"
  | .halt => "HLT"

/-- A value as it is written. -/
def AsmValue.text : AsmValue → String
  | .lit v => toString v
  | .label name => name

/-- `#v` or `[v]` (R67). -/
def AsmOperand.text : AsmOperand → String
  | .imm v => "#" ++ v.text
  | .pos v => "[" ++ v.text ++ "]"

/-- An instruction as it is written: its mnemonic and its operands (R67, R68). -/
def AsmInstr.text (i : AsmInstr) : String :=
  match i.operands with
  | [] => i.mnemonic
  | os => i.mnemonic ++ " " ++ String.intercalate ", " (os.map (·.text))

/-- A line as it is written (R67 to R69). -/
def AsmLine.text : AsmLine → String
  | .instr i => i.text
  | .jmp t => "JMP " ++ t.text
  | .mov a d => "MOV " ++ a.text ++ ", " ++ d.text
  | .nop3 => "NOP3"
  | .word v => ".word " ++ v.text
  | .label name => name ++ ":"

end Sys2Proof
end

