-- ==== Sys2Proof/Machine/State.lean ====
section
/-! DEFINITION. The machine's state, all that spec/10_state.md R34 and spec/60_exceptions.md R108 and R109 give it, the
reasons a step can stop, and the state after reset. -/

namespace Sys2Proof.Machine

/-- One listed word of memory: its index and its value. The smallest unit memory is addressed in is the word (R37, R38). -/
abbrev Cell := Nat × Int

/-- The memory `M` of `N` words (R23). `cells` lists the words that are not 0, by rising index (`Memory.wf`), and an
index of `[0, N)` that is not listed holds 0; so each memory is one list (log entry 5). -/
structure Memory where
  /-- `N`, the number of words; fixed at load time (R7, R23). -/
  size : Nat
  /-- The listed words. -/
  cells : List Cell
  deriving DecidableEq, Repr

/-- The three fault categories (R28, R97). -/
inductive FaultCat where
  /-- "opcode digits do not match any known instruction" -/
  | decodeFault
  /-- "a resolved read or write index is negative or ≥ memory length" -/
  | addressFault
  /-- "an Input instruction executes with no remaining input values" -/
  | inputExhausted
  deriving DecidableEq, Repr

/-- The fault diagnostic (R28): exactly these three fields (D19). -/
structure Diag where
  /-- The value of `pc` in the step that faulted. -/
  faultPc : Int
  /-- The word at `fault_pc`, or none when `fault_pc` is outside `[0, N)`. -/
  faultWord : Option Int
  /-- The category. -/
  faultCat : FaultCat
  deriving DecidableEq, Repr

/-- The run-state register with the diagnostic it carries (R27, R29). -/
inductive RunState where
  | running
  | halted
  | faulted (d : Diag)
  deriving DecidableEq, Repr

/-- The input device behind `in_ch` (R30, R108). -/
structure InputDevice where
  /-- The words not yet pulled, the next one first. -/
  inq : List Int
  /-- No further word will come. -/
  inClosed : Bool
  deriving DecidableEq, Repr

/-- The output device behind `out_ch` (R31, R109). -/
structure OutputDevice where
  /-- The words pushed, the first one first. -/
  outq : List Int
  deriving DecidableEq, Repr

/-- The machine's state: R34's table, the two devices, and the machine's parameters (R10). -/
structure State where
  /-- `W`, `JUMP_TARGET_READ` and `INPUT_ORDER`, fixed at construction (R6, R8, R9). -/
  params : Params
  /-- `M` and `N` (R23). -/
  mem : Memory
  /-- The program counter (R25). -/
  pc : Int
  /-- The run state and the fault diagnostic (R27 to R29). -/
  run : RunState
  /-- The input channel: the device the handle `in_ch` is bound to for the run (R30, log entry 8). -/
  inCh : InputDevice
  /-- The output channel: the device the handle `out_ch` is bound to for the run (R31, log entry 8). -/
  outCh : OutputDevice
  deriving DecidableEq, Repr

/-- Reasons a step stops outside the spec's own states. There are none: the spec's three faults are states of the
machine (`RunState.faulted`, R100), entered by a next state (log entry 9). Nobody raises one; this is safe. -/
inductive Fault where
  deriving DecidableEq, Repr

/-- Reasons an instruction has no meaning in the model. -/
inductive Refusal where
  /-- The instruction of this mnemonic is not modelled. Only an arm of `exec` may raise it, and none does; it is safe,
  since nothing can be proved of what follows. -/
  | notModelled (mnemonic : String)
  deriving DecidableEq, Repr

/-- What a step answers. Every step of this machine answers a next state. -/
abbrev Result := Host.Outcome State Fault Refusal

/-- The answers of `Pull` (R15, R85). -/
inductive PullAnswer where
  | value (v : Int)
  | wait
  | exhausted
  deriving DecidableEq, Repr

/-- The sources of the next-pc multiplexer (R81). -/
inductive NextPc where
  /-- `SEQ`: `pc + len`. -/
  | seq (len : Nat)
  /-- `TGT`: the target operand. -/
  | tgt (t : Int)
  /-- `HOLD`: `pc` unchanged. -/
  | hold
  deriving DecidableEq, Repr

/-- The machine right after reset, with no program placed: R112 of a program of no words. `pc` is 0 and `run` is Running
as R112 says; the parameters are log entries 2 to 4, `N = 0` is log entry 6, the empty open input is log entry 7. -/
def State.reset : State where
  params := Config.resetParams
  mem := ⟨0, []⟩
  pc := 0
  run := .running
  inCh := ⟨[], false⟩
  outCh := ⟨[]⟩

end Sys2Proof.Machine
end

