-- ==== Sys2Proof/Machine/Flags.lean ====
section
/-! DEFINITION. The ALU (spec/40_execution_step.md R79). The machine has no flags (spec/10_state.md R21): a comparison's
result is a word, and a jump's condition is computed from its operand. -/

namespace Sys2Proof.Machine

/-- `wrap_W(v)`: the word congruent to `v` modulo `2^W` (R11). Lean's `%` on integers has its result in `[0, 2^W)`. -/
def wrap (width : Nat) (v : Int) : Int :=
  (v + ((2 ^ (width - 1) : Nat) : Int)) % ((2 ^ width : Nat) : Int) - ((2 ^ (width - 1) : Nat) : Int)

/-- `alu_add` (R79). -/
def aluAdd (width : Nat) (a b : Int) : Int := wrap width (a + b)

/-- `alu_mul` (R79). -/
def aluMul (width : Nat) (a b : Int) : Int := wrap width (a * b)

/-- `alu_lt`: a signed comparison (R79). -/
def aluLt (a b : Int) : Int := if a < b then 1 else 0

/-- `alu_eq` (R79). -/
def aluEq (a b : Int) : Int := if a = b then 1 else 0

/-- `alu_nz`: the one-bit condition of the jumps (R79). -/
def aluNz (a : Int) : Bool := decide (a ≠ 0)

end Sys2Proof.Machine
end

