-- ==== Sys2Proof/Machine/Ops.lean ====
section
/-! DEFINITION. The named operations over the state: memory, the channels, the next-pc multiplexer, and how a step ends
(completed, halted, faulted or stalled; spec/00_scope.md R14 to R16, R19). -/

namespace Sys2Proof.Machine

/-! ## Memory (R14, R23, R36) -/

/-- What an index that is not listed holds (log entry 5). -/
def Memory.unlisted : Int := 0

/-- The value the listed words give an index. The list rises, so a greater index ends the search. -/
def cellsRead : List Cell → Nat → Int
  | [], _ => Memory.unlisted
  | (b, v) :: rest, a => if a < b then Memory.unlisted else if a = b then v else cellsRead rest a

/-- The listed words after `M[a] <- v`. Writing what an unlisted index holds removes the entry; the entries dropped after
it are those a rising list does not have, so that the read laws hold of every list. -/
def cellsWrite : List Cell → Nat → Int → List Cell
  | [], a, v => if v = Memory.unlisted then [] else [(a, v)]
  | (b, w) :: rest, a, v =>
    if a < b then (if v = Memory.unlisted then (b, w) :: rest else (a, v) :: (b, w) :: rest)
    else if a = b then (if v = Memory.unlisted then rest.dropWhile (fun c => decide (c.1 ≤ a)) else (a, v) :: rest)
    else (b, w) :: cellsWrite rest a v

/-- `M[a]`. -/
def Memory.read (m : Memory) (a : Nat) : Int := cellsRead m.cells a

/-- `M[a] <- v`; `N` does not change (R23). -/
def Memory.write (m : Memory) (a : Nat) (v : Int) : Memory := { m with cells := cellsWrite m.cells a v }

/-- The canonical form: indices strictly rise, stay below `N`, and no listed word is what an unlisted index holds. -/
abbrev Memory.wf (m : Memory) : Prop :=
  m.cells.Pairwise (fun c d => c.1 < d.1) ∧ ∀ c ∈ m.cells, c.2 ≠ Memory.unlisted ∧ c.1 < m.size

/-- The listed words of a program whose first word has index `start`. -/
def cellsOfWords (start : Nat) : List Int → List Cell
  | [] => []
  | v :: vs => if v = Memory.unlisted then cellsOfWords (start + 1) vs else (start, v) :: cellsOfWords (start + 1) vs

/-- The memory a program is copied into: `M[i] = prog[i]`, `N = length(prog)` (R23, R112). -/
def Memory.ofWords (prog : List Int) : Memory := ⟨prog.length, cellsOfWords 0 prog⟩

/-- All `N` words, in order: what the host inspects (R51). -/
def Memory.toWords (m : Memory) : List Int := (List.range m.size).map m.read

/-- Words written one after another from an index on. -/
def Memory.writeWords (m : Memory) (start : Nat) : List Int → Memory
  | [] => m
  | v :: vs => (m.write start v).writeWords (start + 1) vs

/-! ## Fields -/

/-- `pc <- target` (R13). -/
def State.setPc (s : State) (target : Int) : State := { s with pc := target }

/-- `run <- r`. -/
def State.setRun (s : State) (r : RunState) : State := { s with run := r }

/-- The memory replaced. -/
def State.setMem (s : State) (m : Memory) : State := { s with mem := m }

/-- The input device replaced. -/
def State.setIn (s : State) (d : InputDevice) : State := { s with inCh := d }

/-- The output device replaced. -/
def State.setOut (s : State) (d : OutputDevice) : State := { s with outCh := d }

/-! ## Int accesses (R14) -/

/-- `InRange(a)`: `0 <= a < N` (R14, R36). -/
abbrev State.InRange (s : State) (a : Int) : Prop := 0 ≤ a ∧ a < (s.mem.size : Int)

/-- `Some(M[a])`, or `None` where no word exists (R28, R100). -/
def State.word? (s : State) (a : Int) : Option Int := if s.InRange a then some (s.mem.read a.toNat) else none

/-- `MemRead(a)`: the word, or AddressFault (R14). -/
def State.memRead (s : State) (a : Int) : Except FaultCat Int :=
  if s.InRange a then .ok (s.mem.read a.toNat) else .error .addressFault

/-- `MemWrite(a, v)`: the word written, or AddressFault (R14). -/
def State.memWrite (s : State) (a v : Int) : Except FaultCat State :=
  if s.InRange a then .ok (s.setMem (s.mem.write a.toNat v)) else .error .addressFault

/-- The opcode word at `pc`, or AddressFault: the first act of every step (R72). -/
def State.fetch (s : State) : Except FaultCat Int := s.memRead s.pc

/-! ## The channels (R85, R86, R108, R109) -/

/-- `Pull()`: the device's answer, and the state with the answered value consumed (R85, R108). -/
def State.pull (s : State) : PullAnswer × State :=
  match s.inCh.inq with
  | v :: rest => (.value v, s.setIn { s.inCh with inq := rest })
  | [] => (if s.inCh.inClosed then .exhausted else .wait, s)

/-- `Push(v)`: the word appended to the output; the sink never refuses (R86, R109). -/
def State.push (s : State) (v : Int) : State := s.setOut ⟨s.outCh.outq ++ [v]⟩

/-! ## How a step ends (R16, R19) -/

/-- Fault entry, `raise F` (R100): `run` takes the diagnostic; `pc`, memory and the channels stay as they stand. -/
def State.raise (s : State) (f : FaultCat) : Result := .next (s.setRun (.faulted ⟨s.pc, s.word? s.pc, f⟩))

/-- A stall: the step ends with no state change at all (R16, R87). -/
def State.stall (s : State) : Result := .next s

/-- A Step asked of a terminal machine changes nothing (R71). -/
def State.noStep (s : State) : Result := .next s

/-- `run <- Halted`; everything else stays (R95). -/
def State.halt (s : State) : Result := .next (s.setRun .halted)

/-- The next-pc multiplexer (R81): not range-checked, and exact. -/
def State.nextPc (s : State) : NextPc → Int
  | .seq len => s.pc + (len : Int)
  | .tgt t => t
  | .hold => s.pc

/-- A completed instruction: `pc <- next`, and `run` stays (R70, R81). -/
def State.complete (s : State) (sel : NextPc) : Result := .next (s.setPc (s.nextPc sel))

/-- An access in a step: go on with its result, or `raise` the fault it answers (R16). -/
def State.attempt {α : Type} (s : State) (r : Except FaultCat α) (k : α → Result) : Result :=
  match r with
  | .ok a => k a
  | .error f => s.raise f

/-! ## Placing an instruction from outside (log entry 11) -/

/-- Where the next instruction is fetched: `pc`, or 0 where `pc` is negative or leaves a machine of this width no room
for the longest instruction. -/
def State.fetchIndex (s : State) : Nat := if 0 ≤ s.pc ∧ s.pc.toNat + 4 ≤ s.params.maxSize then s.pc.toNat else 0

/-- The words stored where the next step fetches, with what that fetch needs: a memory long enough, a valid `pc`, and
`run = Running`. -/
def State.placeWords (s : State) (ws : List Int) : State :=
  let m : Memory := { s.mem with size := max s.mem.size (s.fetchIndex + ws.length) }
  ((s.setMem (m.writeWords s.fetchIndex ws)).setPc (s.fetchIndex : Int)).setRun .running

end Sys2Proof.Machine
end

