-- ==== Sys2Proof/Machine/Operands.lean ====
section
/-! DEFINITION. The operand resolver, or address-mode multiplexer (spec/40_execution_step.md R74 to R77). It reads and
never writes. -/

namespace Sys2Proof.Machine

/-- `param(k)`: parameter word `k`, at `pc + k` (R74). -/
def State.param (s : State) (k : Nat) : Except FaultCat Int := s.memRead (s.pc + (k : Int))

/-- `read(k)`: the parameter word itself in Immediate mode, the word it indexes in Position mode (R75). -/
def State.read (s : State) (k : Nat) (mode : Mode) : Except FaultCat Int :=
  match s.param k with
  | .error f => .error f
  | .ok p =>
    match mode with
    | .immediate => .ok p
    | .position => s.memRead p

/-- `write_address(k)`: the parameter word as an index, checked before any write. The mode is ignored (R61, R76). -/
def State.writeAddress (s : State) (k : Nat) : Except FaultCat Int :=
  match s.param k with
  | .error f => .error f
  | .ok p => if s.InRange p then .ok p else .error .addressFault

end Sys2Proof.Machine
end

