-- ==== Sys2Proof/Machine/Arithmetic.lean ====
section
/-! DEFINITION. The body shared by the F3RRD kinds, and Add and Multiply (spec/41_arithmetic.md R83, R84). -/

namespace Sys2Proof.Machine

/-- The F3RRD body (R60): read(1), read(2), write_address(3), then the one write; `pc + 4`. Each access that fails raises
its fault and nothing is written (R77, R83). -/
def State.storeResult (s : State) (op : Int → Int → Int) (m1 m2 : Mode) : Result :=
  s.attempt (s.read 1 m1) fun a =>
  s.attempt (s.read 2 m2) fun b =>
  s.attempt (s.writeAddress 3) fun d =>
  s.attempt (s.memWrite d (op a b)) fun t =>
  t.complete (.seq 4)

/-- ADD (R83): `Memory[write_address(3)] = read(1) + read(2)`, wrapped. The destination's mode has no effect (R62). -/
def execAdd (m1 m2 _m3 : Mode) (s : State) : Result := s.storeResult (aluAdd s.params.width) m1 m2

/-- MUL (R84): `Memory[write_address(3)] = read(1) * read(2)`, wrapped. The destination's mode has no effect (R62). -/
def execMul (m1 m2 _m3 : Mode) (s : State) : Result := s.storeResult (aluMul s.params.width) m1 m2

end Sys2Proof.Machine
end

