-- ==== Sys2Proof/Machine/Compare.lean ====
section
/-! DEFINITION. LessThan and Equals (spec/44_compare.md R93, R94). -/

namespace Sys2Proof.Machine

/-- LT (R93): "1 if read(1) < read(2) else 0". The destination's mode has no effect (R62). -/
def execLessThan (m1 m2 _m3 : Mode) (s : State) : Result := s.storeResult aluLt m1 m2

/-- EQ (R94): "1 if read(1) == read(2) else 0". The destination's mode has no effect (R62). -/
def execEquals (m1 m2 _m3 : Mode) (s : State) : Result := s.storeResult aluEq m1 m2

end Sys2Proof.Machine
end

