-- ==== Sys2Proof/Machine/Halt.lean ====
section
/-! DEFINITION. Halt and the Unknown kind (spec/45_halt_unknown.md R95, R96). -/

namespace Sys2Proof.Machine

/-- HLT (R95): `run <- Halted`; `pc`, memory and both channels are unchanged. -/
def execHalt (s : State) : Result := s.halt

/-- The Unknown kind (R96): always DecodeFault. It is no instruction of the table; the step calls it (log entry 14). -/
def execUnknown (s : State) : Result := s.raise .decodeFault

end Sys2Proof.Machine
end

