-- ==== Sys2Proof/Machine/InputOutput.lean ====
section
/-! DEFINITION. Input and Output (spec/42_io.md R87 to R89). -/

namespace Sys2Proof.Machine

/-- The end of an Input whose destination is known: the pulled value is written; `pc + 2` (R88). -/
def State.storeInput (s : State) (d v : Int) : Result :=
  s.attempt (s.memWrite d v) fun t => t.complete (.seq 2)

/-- IN (R88), in both orders of `INPUT_ORDER` (R9). A `Wait` stalls (R87); under PullFirst the value stays consumed when
the destination faults. The mode of its one parameter has no effect (R62). -/
def execInput (_m1 : Mode) (s : State) : Result :=
  match s.params.inputOrder with
  | .pullFirst =>
    match s.pull with
    | (.wait, _) => s.stall
    | (.exhausted, t) => t.raise .inputExhausted
    | (.value v, t) => t.attempt (t.writeAddress 1) fun d => t.storeInput d v
  | .resolveFirst =>
    s.attempt (s.writeAddress 1) fun d =>
    match s.pull with
    | (.wait, _) => s.stall
    | (.exhausted, t) => t.raise .inputExhausted
    | (.value v, t) => t.storeInput d v

/-- OUT (R89): "push `read(1)` to output sink"; `pc + 2`. -/
def execOutput (m1 : Mode) (s : State) : Result :=
  s.attempt (s.read 1 m1) fun a => (s.push a).complete (.seq 2)

end Sys2Proof.Machine
end

