-- ==== Sys2Proof/Machine/Jump.lean ====
section
/-! DEFINITION. JumpIfTrue and JumpIfFalse (spec/43_control_flow.md R90 to R92). -/

namespace Sys2Proof.Machine

/-- The F2RR body (R60): the condition, then the target under `JUMP_TARGET_READ` (R8): Lazy resolves it only when the
jump is taken, Eager always. The target is absolute and is not range-checked here (R90). -/
def State.jumpWhen (s : State) (taken : Int → Bool) (m1 m2 : Mode) : Result :=
  s.attempt (s.read 1 m1) fun c =>
  match s.params.jumpTargetRead with
  | .lazy => if taken c then s.attempt (s.read 2 m2) fun t => s.complete (.tgt t) else s.complete (.seq 3)
  | .eager => s.attempt (s.read 2 m2) fun t => if taken c then s.complete (.tgt t) else s.complete (.seq 3)

/-- JT (R91): "if `read(1) != 0`, next pc = `read(2)`; else pc+3". -/
def execJumpIfTrue (m1 m2 : Mode) (s : State) : Result := s.jumpWhen aluNz m1 m2

/-- JF (R92): "if `read(1) == 0`, next pc = `read(2)`; else pc+3". -/
def execJumpIfFalse (m1 m2 : Mode) (s : State) : Result := s.jumpWhen (fun c => !aluNz c) m1 m2

end Sys2Proof.Machine
end

