-- ==== Sys2Proof/Machine/Step.lean ====
section
/-! DEFINITION. One step of the execution loop (spec/40_execution_step.md R70 to R72). -/

namespace Sys2Proof.Machine

/-- Step (R70). A terminal machine has no step (R71). Otherwise the word at `pc` is fetched, which raises AddressFault
where `pc` is out of range (R72), and decoded; an instruction runs its body (R73), and an Unknown word raises
DecodeFault (R96). -/
def step (s : State) : Host.Outcome State Fault Refusal :=
  match s.run with
  | .running =>
    s.attempt s.fetch fun w =>
      match decodeInstr w with
      | .ok i => exec i s
      | .error _ => execUnknown s
  | .halted => s.noStep
  | .faulted _ => s.noStep

/-- The state with a numbered instruction stored where `step` fetches next (log entry 11). -/
def State.withFetchWord (s : State) (nbits w : Nat) : State := s.placeWords (tableWords nbits w)

end Sys2Proof.Machine
end

