-- ==== Sys2Proof/Machine/HostPort.lean ====
section
/-! DEFINITION. What the host can do to the machine (spec/60_exceptions.md R110): construct it, drive it, feed it, read
its output and its status port, and inspect it when it has ended. -/

namespace Sys2Proof.Machine

/-! ## Construction (R112) -/

/-- The state R112 constructs from a program and an input source. -/
def State.ofProgram (p : Params) (prog : List Int) (source : InputDevice) : State where
  params := p
  mem := Memory.ofWords prog
  pc := 0
  run := .running
  inCh := source
  outCh := ⟨[]⟩

/-- Construction with the host's duty (D12, D13): none where the width, the program or the supplied input is refused. -/
def construct (p : Params) (prog : List Int) (source : InputDevice) : Option State :=
  if p.wellFormed && programWellFormed p prog && wordsWellFormed p.width source.inq then
    some (State.ofProgram p prog source)
  else none

/-! ## Feeding (R108) -/

/-- The host appends words while the input is open; it never pushes a word that does not fit (D13). -/
def State.feed (s : State) (ws : List Int) : Option State :=
  if !s.inCh.inClosed && wordsWellFormed s.params.width ws then
    some (s.setIn { s.inCh with inq := s.inCh.inq ++ ws })
  else none

/-- The host closes the input, "once, for good" (R108). Closing an input that is already closed changes nothing: the spec
does not say what a second close is (DESIGN CHOICE, safe, log entry 20). -/
def State.close (s : State) : State := s.setIn { s.inCh with inClosed := true }

/-- The host moves the output another machine has pushed since it last did, after its first `sent` words (R111). -/
def State.chain (s : State) (sender : State) (sent : Nat) : Option State := s.feed (sender.outCh.outq.drop sent)

/-! ## Acts of the host in the order it makes them -/

/-- One act of the host on a running machine (R110). -/
inductive HostAct where
  /-- Ask for one Step. -/
  | step
  /-- Append words to `inq`. -/
  | feed (ws : List Int)
  /-- Close the input; where it is closed already this changes nothing (log entry 20). -/
  | close
  deriving DecidableEq, Repr

/-- The state after one act, none where the host may not make it: feeding a closed input, or words that do not fit. A
second close is accepted, as an act without effect (DESIGN CHOICE, log entry 20). -/
def State.act (s : State) : HostAct → Option State
  | .step =>
    match Sys2Proof.Machine.step s with
    | .next t => some t
    | .fault _ => none
    | .refused _ => none
  | .feed ws => s.feed ws
  | .close => some s.close

/-- The state after a list of acts, the first one first. The host may stop after any of them (R110, R117). -/
def State.drive (s : State) : List HostAct → Option State
  | [] => some s
  | h :: hs =>
    match s.act h with
    | some t => t.drive hs
    | none => none

/-! ## The status port and inspection (R27 to R29, R51, D18) -/

/-- The code of the run state: 0 Running, 1 Halted, 2 Faulted (R27). -/
def RunState.code : RunState → BitVec 2
  | .running => 0
  | .halted => 1
  | .faulted _ => 2

/-- The code of a fault category: 1, 2 or 3 (R28). -/
def FaultCat.code : FaultCat → BitVec 2
  | .decodeFault => 1
  | .addressFault => 2
  | .inputExhausted => 3

/-- The diagnostic of a faulted machine; there is none otherwise (R29). -/
def RunState.diag? : RunState → Option Diag
  | .running => none
  | .halted => none
  | .faulted d => some d

/-- The status port of D18. A field is none where it is not meaningful (R29, log entry 16). -/
structure StatusPort where
  runState : BitVec 2
  /-- 0 where there is no diagnostic (R29). -/
  faultCat : BitVec 2
  faultPc : Option Int
  faultWord : Option Int
  faultWordValid : Option Bool
  deriving DecidableEq, Repr

/-- What the status port shows. -/
def State.statusPort (s : State) : StatusPort :=
  match s.run.diag? with
  | none => ⟨s.run.code, 0, none, none, none⟩
  | some d => ⟨s.run.code, d.faultCat.code, some d.faultPc, d.faultWord, some d.faultWord.isSome⟩

/-- `(final_memory, final_state)`, once the machine is terminal (R51, R110, R116). -/
def State.inspect (s : State) : Option (List Int × RunState) :=
  match s.run with
  | .running => none
  | .halted => some (s.mem.toWords, .halted)
  | .faulted d => some (s.mem.toWords, .faulted d)

/-- The result of a run: `(final_memory, final_state)` with the output `outq`. None while the run has not ended (R116). -/
def State.result (s : State) : Option ((List Int × RunState) × List Int) := s.inspect.map fun r => (r, s.outCh.outq)

end Sys2Proof.Machine
end

