-- ==== Sys2Proof/Safety.lean ====
section
/-! DEFINITION. The invariant of the machine, its terminal and stalled states, and the ends of a run
(spec/70_reset_and_hazards.md R115 to R117), in the terms claims use. -/

namespace Sys2Proof.Machine

/-- The invariant: the width is one the spec allows (R6), the memory is canonical and small enough (R7), every stored
value is a word (R6, R11), and a diagnostic names the `pc` and the word it stopped at (R28, R29). -/
structure State.Wf (s : State) : Prop where
  width : 32 ≤ s.params.width
  canonical : s.mem.wf
  size : s.mem.size ≤ s.params.maxSize
  memFits : ∀ c ∈ s.mem.cells, Word.Fits s.params.width c.2
  pcFits : Word.Fits s.params.width s.pc
  inFits : ∀ v ∈ s.inCh.inq, Word.Fits s.params.width v
  outFits : ∀ v ∈ s.outCh.outq, Word.Fits s.params.width v
  diag : ∀ d, s.run = .faulted d → d.faultPc = s.pc ∧ d.faultWord = s.word? s.pc

/-- `Halted` or `Faulted(_)`: the machine has no step (R19, R71, R115). -/
abbrev State.Terminal (s : State) : Prop := s.run ≠ .running

/-- The next step is the instruction `i`: the machine is Running and the word at `pc` decodes to `i` (R70). -/
def State.Fetches (s : State) (i : Instr) : Prop :=
  s.run = .running ∧ ∃ w, s.fetch = .ok w ∧ decodeInstr w = .ok i

/-! ## Runs (R116)

A run is what the host makes of a constructed machine: Steps, with feeding and closing between them in any order (R110). -/

/-- `t` is a state of some run from `s`: some acts of the host lead to it. -/
def State.Reaches (s t : State) : Prop := ∃ acts, s.drive acts = some t

/-- Some run from `s` ends Halted: the only successful end. -/
def State.EndsHalted (s : State) : Prop := ∃ t, s.Reaches t ∧ t.run = .halted

/-- Some run from `s` ends Faulted. -/
def State.EndsFaulted (s : State) : Prop := ∃ t d, s.Reaches t ∧ t.run = .faulted d

/-- Every run from `s` is safe: no state of it is Faulted, whatever the host feeds and whenever it closes. -/
def State.Safe (s : State) : Prop := ∀ t d, s.Reaches t → t.run ≠ .faulted d

/-- Waiting for input: the machine fetches Input, and its step is a stall (R33, R87). Such a run has not ended. -/
def State.Stalled (s : State) : Prop := (∃ m1, s.Fetches (.input m1)) ∧ step s = .next s

/-- The state of a run from `s` after the first `n` acts of an unending list of them, none where one is not allowed. -/
def State.runAt (s : State) (acts : Nat → HostAct) (n : Nat) : Option State := s.drive ((List.range n).map acts)

/-- The host may make every one of these acts. -/
def State.Allows (s : State) (acts : Nat → HostAct) : Prop := ∀ n, ∃ t, s.runAt acts n = some t

/-- The host never stops asking for Steps. It is at liberty to (R110), and the run then has no end. -/
def KeepsDriving (acts : Nat → HostAct) : Prop := ∀ n, ∃ m, n ≤ m ∧ acts m = .step

/-- The host's feeding duty (R110): after a stall it eventually pushes a value or closes the input. -/
def State.FeedsStalls (s : State) (acts : Nat → HostAct) : Prop :=
  ∀ n t, s.runAt acts n = some t → t.Stalled → ∃ m, n ≤ m ∧ (acts m = .close ∨ ∃ v vs, acts m = .feed (v :: vs))

/-- Every run from `s` reaches Halted: the claim that a program halts, under the two things it needs of the host (R116,
log entry 21). -/
def State.AlwaysHalts (s : State) : Prop :=
  ∀ acts, s.Allows acts → KeepsDriving acts → s.FeedsStalls acts → ∃ n t, s.runAt acts n = some t ∧ t.run = .halted

/-- The program halts: it can be loaded, and every run of it from construction reaches Halted. -/
def ProgramHalts (p : Params) (prog : List Int) (source : InputDevice) : Prop :=
  ∃ s, construct p prog source = some s ∧ s.AlwaysHalts

/-- The program is safe: it can be loaded, and no run of it from construction is ever Faulted. -/
def ProgramSafe (p : Params) (prog : List Int) (source : InputDevice) : Prop :=
  ∃ s, construct p prog source = some s ∧ s.Safe

end Sys2Proof.Machine
end

