-- ==== Sys2Proof/Certificates/Slice0/Obligations.lean ====
section
/-! DEFINITION. The statements for the provers: what the numbered rules of spec/ say the machine does. Each docstring
names the rules; where a statement rests on one of the spec's own decisions (D<n>) or a log entry, it says so. -/

namespace Sys2Proof.Claims

open Sys2Proof.Machine

/-- The state a fault entry leaves: `run` holds the diagnostic of this `pc`, and nothing else changes (R100). -/
def faulted (s : State) (f : FaultCat) : State := s.setRun (.faulted ⟨s.pc, s.word? s.pc, f⟩)

/-- What a storing instruction of `len` words leaves: index `d` holds `v`, every other index reads as before, `pc` has
passed the instruction, and every other piece of state, the input device apart, is unchanged. -/
def Stored (s t : State) (d v : Int) (len : Nat) : Prop :=
  t.mem.read d.toNat = v ∧ (∀ x, x ≠ d.toNat → t.mem.read x = s.mem.read x) ∧ t.mem.size = s.mem.size ∧
  t.pc = s.pc + (len : Int) ∧ t.run = s.run ∧ t.outCh = s.outCh ∧ t.params = s.params

/-- Parameter `k`, resolved in mode `m`, makes an access outside `[0, N)`: its own word, or in Position mode the word it
names (R98). A destination is resolved as Position is (R61, R76). -/
def BadAccess (s : State) (k : Nat) (m : Mode) : Prop :=
  ¬ s.InRange (s.pc + (k : Int)) ∨ (m = .position ∧ ¬ s.InRange (s.mem.read (s.pc + (k : Int)).toNat))

/-- The jump resolves its target: its condition resolves, and it is taken or the policy is Eager (R91, R92). -/
def TargetResolved (s : State) (taken : Int → Prop) (m1 : Mode) : Prop :=
  ∃ c, s.read 1 m1 = .ok c ∧ (taken c ∨ s.params.jumpTargetRead = .eager)

/-- An access of the instruction is outside `[0, N)`: the accesses of R98, kind by kind. -/
def MakesBadAccess (s : State) : Instr → Prop
  | .add m1 m2 _ => BadAccess s 1 m1 ∨ BadAccess s 2 m2 ∨ BadAccess s 3 .position
  | .mul m1 m2 _ => BadAccess s 1 m1 ∨ BadAccess s 2 m2 ∨ BadAccess s 3 .position
  | .input _ => BadAccess s 1 .position
  | .output m1 => BadAccess s 1 m1
  | .jumpIfTrue m1 m2 => BadAccess s 1 m1 ∨ (TargetResolved s (fun c => c ≠ 0) m1 ∧ BadAccess s 2 m2)
  | .jumpIfFalse m1 m2 => BadAccess s 1 m1 ∨ (TargetResolved s (fun c => c = 0) m1 ∧ BadAccess s 2 m2)
  | .lessThan m1 m2 _ => BadAccess s 1 m1 ∨ BadAccess s 2 m2 ∨ BadAccess s 3 .position
  | .equals m1 m2 _ => BadAccess s 1 m1 ∨ BadAccess s 2 m2 ∨ BadAccess s 3 .position
  | .halt => False

/-- The step completes an instruction of `len` words, and the word fetched next is `v`. -/
def NextFetches (s : State) (len : Nat) (v : Int) : Prop :=
  ∃ t, step s = .next t ∧ t.run = .running ∧ t.pc = s.pc + (len : Int) ∧ t.fetch = .ok v

/-- Both policies of R8 treat a jump alike that is taken on the conditions `taken`: its target resolves, or it is taken, or
its condition does not resolve. -/
def PolicyFree (s : State) (taken : Int → Prop) (m1 m2 : Mode) : Prop :=
  (∃ v, s.read 2 m2 = .ok v) ∨ (∃ c, s.read 1 m1 = .ok c ∧ taken c) ∨ ∀ c, s.read 1 m1 ≠ .ok c

/-- The instruction stores a result of two operands: Add, Multiply, LessThan and Equals (format F3RRD, R60). -/
def storesResult : Instr → Bool
  | .add _ _ _ => true
  | .mul _ _ _ => true
  | .input _ => false
  | .output _ => false
  | .jumpIfTrue _ _ => false
  | .jumpIfFalse _ _ => false
  | .lessThan _ _ _ => true
  | .equals _ _ _ => true
  | .halt => false

/-- The instruction is Input. -/
def isInput : Instr → Bool
  | .add _ _ _ => false
  | .mul _ _ _ => false
  | .input _ => true
  | .output _ => false
  | .jumpIfTrue _ _ => false
  | .jumpIfFalse _ _ => false
  | .lessThan _ _ _ => false
  | .equals _ _ _ => false
  | .halt => false

/-- The same machine under another jump-target read policy (R8). -/
def withTargetRead (s : State) (p : JumpTargetRead) : State := { s with params := { s.params with jumpTargetRead := p } }

/-- The same machine under another input order (R9). -/
def withInputOrder (s : State) (o : InputOrder) : State := { s with params := { s.params with inputOrder := o } }

end Sys2Proof.Claims

open Sys2Proof Sys2Proof.Machine Sys2Proof.Claims

/-! ## Decoding and encoding (spec/30_encoding.md) -/

/-- R57: digit 1 is Immediate and every other digit is Position, in each of the three mode positions of R54. -/
def Obligations.ModeDigitOneIsImmediate : Prop :=
  (∀ d : Nat, (d = 1 → modeOf d = .immediate) ∧ (d ≠ 1 → modeOf d = .position)) ∧
  (∀ w : Int, 0 ≤ w →
    ((decode w).mode1 = .immediate ↔ w / 100 % 10 = 1) ∧
    ((decode w).mode2 = .immediate ↔ w / 1000 % 10 = 1) ∧
    ((decode w).mode3 = .immediate ↔ w / 10000 % 10 = 1)) ∧
  decode 1002 = ⟨.multiply, .position, .immediate, .position⟩

/-- R56: the opcode is `w mod 100`, and the value names the kind. -/
def Obligations.OpcodeIsTheTwoLowestDigits : Prop :=
  (∀ w : Int, 0 ≤ w →
    (0 ≤ w % 100 ∧ w % 100 ≤ 99) ∧
    ((decode w).kind = .add ↔ w % 100 = 1) ∧
    ((decode w).kind = .multiply ↔ w % 100 = 2) ∧
    ((decode w).kind = .input ↔ w % 100 = 3) ∧
    ((decode w).kind = .output ↔ w % 100 = 4) ∧
    ((decode w).kind = .jumpIfTrue ↔ w % 100 = 5) ∧
    ((decode w).kind = .jumpIfFalse ↔ w % 100 = 6) ∧
    ((decode w).kind = .lessThan ↔ w % 100 = 7) ∧
    ((decode w).kind = .equals ↔ w % 100 = 8) ∧
    ((decode w).kind = .halt ↔ w % 100 = 99) ∧
    ((decode w).kind = .unknown ↔ w % 100 = 0 ∨ (9 ≤ w % 100 ∧ w % 100 ≤ 98))) ∧
  decode 1 = ⟨.add, .position, .position, .position⟩

/-- The spec's own decision D3 (R58): a negative word is Unknown with all modes Position, so executing it raises
DecodeFault. -/
def Obligations.NegativeWordIsUnknown : Prop :=
  ∀ w : Int, w < 0 →
    decode w = ⟨.unknown, .position, .position, .position⟩ ∧
    ∀ s : State, s.run = .running → s.fetch = .ok w → step s = .next (faulted s .decodeFault)

/-- Words of spec/95_test_vectors.md L2.1 and of R62, R63 and R66, each with the instruction it stands for. -/
def Obligations.ListedWordsDecode : Prop :=
  decodeInstr 1 = .ok (.add .position .position .position) ∧
  decodeInstr 1002 = .ok (.mul .position .immediate .position) ∧
  decodeInstr 11101 = .ok (.add .immediate .immediate .immediate) ∧
  decodeInstr 12301 = .ok (.add .position .position .immediate) ∧
  decodeInstr 103 = .ok (.input .immediate) ∧
  decodeInstr 1104 = .ok (.output .immediate) ∧
  decodeInstr 1005 = .ok (.jumpIfTrue .position .immediate) ∧
  decodeInstr 1106 = .ok (.jumpIfFalse .immediate .immediate) ∧
  decodeInstr 1107 = .ok (.lessThan .immediate .immediate .position) ∧
  decodeInstr 10008 = .ok (.equals .position .position .immediate) ∧
  decodeInstr 1000099 = .ok .halt ∧
  decodeInstr 98 = .error .unknownOpcode ∧
  decodeInstr (-1) = .error .negativeWord

/-- R55 and R68: decoding the word of an instruction gives the instruction back, for every instruction and every mode,
the ignored destination modes among them; the word has at most five digits. -/
def Obligations.DecodeOfEncode : Prop :=
  ∀ i : Instr, decodeInstr (encode i) = .ok i ∧ 0 ≤ encode i ∧ encode i < 100000

/-- R66 and R68: a word whose digits are canonical (0 or 1 where the instruction has a parameter, 0 elsewhere) is the
word its instruction encodes to. -/
def Obligations.EncodeOfDecodeCanonical : Prop :=
  ∀ (w : Int) (i : Instr), decodeInstr w = .ok i → w < 100000 →
    (∀ k, 2 ≤ k → k ≤ i.len → digit w.toNat k ≤ 1) →
    (∀ k, i.len < k → k ≤ 4 → digit w.toNat k = 0) →
    encode i = w

/-- R65: the words that are instructions are those whose opcode is one of the nine; every other word, and every negative
word, is refused. -/
def Obligations.ExactlyNineOpcodesDecode : Prop :=
  ∀ w : Int, (∃ i, decodeInstr w = .ok i) ↔
    (0 ≤ w ∧ (w % 100 = 99 ∨ (1 ≤ w % 100 ∧ w % 100 ≤ 8)))

/-- R54: digits at position 5 and above have no effect on decoding. -/
def Obligations.HighDigitsAreIgnored : Prop :=
  ∀ w : Int, 0 ≤ w → decode (w % 100000) = decode w

/-- R63: a mode digit for a parameter the instruction does not have is ignored: B and C of Input and Output, C of the
jumps, all three of Halt. -/
def Obligations.AbsentParameterDigitsAreIgnored : Prop :=
  ∀ w : Int, 0 ≤ w →
    ((w % 100 = 3 ∨ w % 100 = 4) → decodeInstr (w % 1000) = decodeInstr w) ∧
    ((w % 100 = 5 ∨ w % 100 = 6) → decodeInstr (w % 10000) = decodeInstr w) ∧
    (w % 100 = 99 → decodeInstr w = .ok .halt)

/-- R67 and R68: disassembling the words of a well-formed instruction, whatever words follow them, gives the instruction
back and leaves those words; the instruction takes the words of its length. -/
def Obligations.DisassembleOfAssemble : Prop :=
  ∀ (width : Nat) (i : AsmInstr) (ws rest : List Int), i.wellFormed width = true → i.words [] = some ws →
    disassembleOne (ws ++ rest) = some (.instr i, rest) ∧ ws.length = i.instr.len

/-- R69: `JMP` always jumps, `MOV` copies one word, and `NOP3` never jumps and never faults under either value of
JUMP_TARGET_READ. Each is stated of the instruction it expands to, at a state whose parameter words are those of the
expansion. The three are the spec's own decision D15 (log entries 12 and 15); that `JMP` sets `pc` to any word, with no
range check, is its decision D4. -/
def Obligations.PseudoInstructionsActAsNamed : Prop :=
  (∀ (t : AsmOperand) (s : State) (v : Int), s.param 1 = .ok 1 → s.read 2 t.mode = .ok v →
    ∃ i, (AsmLine.jmp t).expand = .instr i ∧ exec i.instr s = .next (s.setPc v)) ∧
  (∀ (a d : AsmOperand) (s : State) (v x : Int), 32 ≤ s.params.width → Word.Fits s.params.width v →
    s.read 1 a.mode = .ok v → s.param 2 = .ok 0 → s.writeAddress 3 = .ok x →
    ∃ i t, (AsmLine.mov a d).expand = .instr i ∧ exec i.instr s = .next t ∧ Stored s t x v 4 ∧ t.inCh = s.inCh) ∧
  (∀ s : State, s.param 1 = .ok 0 → s.param 2 = .ok 0 →
    ∃ i, AsmLine.nop3.expand = .instr i ∧ exec i.instr s = .next (s.setPc (s.pc + 3)))

/-! ## Accesses and operands (spec/00_scope.md R14, spec/40_execution_step.md R74 to R77) -/

/-- R14: `InRange`, `MemRead` and `MemWrite`; an access moves one whole word, and outside `[0, N)` it raises
AddressFault. -/
def Obligations.MemoryAccessesAreRangeChecked : Prop :=
  ∀ (s : State) (a v : Int),
    (s.InRange a ↔ 0 ≤ a ∧ a < (s.mem.size : Int)) ∧
    (s.InRange a → s.memRead a = .ok (s.mem.read a.toNat) ∧
      ∃ t, s.memWrite a v = .ok t ∧ t.mem.read a.toNat = v ∧ (∀ x, x ≠ a.toNat → t.mem.read x = s.mem.read x) ∧
        t.mem.size = s.mem.size ∧ t.pc = s.pc ∧ t.run = s.run ∧ t.inCh = s.inCh ∧ t.outCh = s.outCh ∧
        t.params = s.params) ∧
    (¬ s.InRange a →
      (∀ k : Int → Result, s.attempt (s.memRead a) k = s.raise .addressFault) ∧
      (∀ k : State → Result, s.attempt (s.memWrite a v) k = s.raise .addressFault))

/-- R74 and R75: parameter word `k` is the word at `pc + k`; a read operand is that word in Immediate mode and the word it
indexes in Position mode; a parameter past the end, and an index outside `[0, N)`, raise AddressFault. -/
def Obligations.ReadOperandsResolveByMode : Prop :=
  ∀ (s : State) (k : Nat), 0 ≤ s.pc → 1 ≤ k → k ≤ 3 →
    (s.pc + k < s.mem.size →
      ∃ p, p = s.mem.read (s.pc + k).toNat ∧ s.param k = .ok p ∧ s.read k .immediate = .ok p ∧
        (s.InRange p → s.read k .position = .ok (s.mem.read p.toNat)) ∧
        (¬ s.InRange p → s.read k .position = .error .addressFault)) ∧
    ((s.mem.size : Int) ≤ s.pc + k →
      s.param k = .error .addressFault ∧ ∀ m, s.read k m = .error .addressFault)

/-- R61: a read parameter follows its mode; a destination parameter is always its word taken as an index, which R76
checks before any write. Every other access answers AddressFault. -/
def Obligations.OperandsResolveByRole : Prop :=
  ∀ (s : State) (k : Nat),
    (∀ v, s.read k .immediate = .ok v ↔ s.InRange (s.pc + k) ∧ v = s.mem.read (s.pc + k).toNat) ∧
    (∀ v, s.read k .position = .ok v ↔
      s.InRange (s.pc + k) ∧ s.InRange (s.mem.read (s.pc + k).toNat) ∧
        v = s.mem.read (s.mem.read (s.pc + k).toNat).toNat) ∧
    (∀ d, s.writeAddress k = .ok d ↔
      s.InRange (s.pc + k) ∧ s.InRange d ∧ d = s.mem.read (s.pc + k).toNat) ∧
    (∀ m, (∀ v, s.read k m ≠ .ok v) → s.read k m = .error .addressFault) ∧
    ((∀ d, s.writeAddress k ≠ .ok d) → s.writeAddress k = .error .addressFault)

/-! ## The ALU (spec/40_execution_step.md R79, R80) -/

/-- R11: `wrap_W(v)` is a word, it is congruent to `v` modulo `2^W`, and it is the only such word. -/
def Obligations.WrapIsTheOnlyCongruentWord : Prop :=
  ∀ (width : Nat) (v : Int), 1 ≤ width →
    Word.Fits width (wrap width v) ∧
    wrap width v % ((2 ^ width : Nat) : Int) = v % ((2 ^ width : Nat) : Int) ∧
    ∀ u, Word.Fits width u → u % ((2 ^ width : Nat) : Int) = v % ((2 ^ width : Nat) : Int) → u = wrap width v

/-- R80's consequences, for every width the spec allows. Wrapping on overflow is the spec's own decision D2. -/
def Obligations.AluConsequences : Prop :=
  ∀ width : Nat, 32 ≤ width →
    (∀ a b, aluAdd width a b = aluAdd width b a ∧ aluMul width a b = aluMul width b a) ∧
    (∀ a b c, aluAdd width (aluAdd width a b) c = aluAdd width a (aluAdd width b c) ∧
      aluMul width (aluMul width a b) c = aluMul width a (aluMul width b c)) ∧
    (∀ a b, Word.Fits width (aluAdd width a b) ∧ Word.Fits width (aluMul width a b)) ∧
    (∀ x, Word.Fits width x → aluAdd width x 0 = x ∧ aluMul width x 1 = x) ∧
    aluAdd width (maxWord width) 1 = minWord width ∧
    aluAdd width (minWord width) (-1) = maxWord width ∧
    aluMul width (minWord width) (-1) = minWord width ∧
    (∀ x, aluMul width x 0 = 0) ∧
    (∀ a b, |a * b| < ((2 ^ (width - 1) : Nat) : Int) → (aluMul width a b).sign = a.sign * b.sign) ∧
    (∀ a b, (aluLt a b = 0 ∨ aluLt a b = 1) ∧ (aluEq a b = 0 ∨ aluEq a b = 1)) ∧
    (∀ x, aluLt x x = 0 ∧ aluEq x x = 1) ∧
    aluLt (-1) 0 = 1

/-! ## Add, Multiply, LessThan, Equals (spec/41_arithmetic.md, spec/44_compare.md) -/

/-- R83: Add stores the wrapped sum of its operands (both as they stood before the write, R49) and completes; its frame.
The wrap is the spec's own decision D2. -/
def Obligations.AddStoresTheWrappedSum : Prop :=
  ∀ (m1 m2 m3 : Mode) (s : State) (a b d : Int),
    s.read 1 m1 = .ok a → s.read 2 m2 = .ok b → s.writeAddress 3 = .ok d →
    ∃ t, exec (.add m1 m2 m3) s = .next t ∧ Stored s t d (wrap s.params.width (a + b)) 4 ∧ t.inCh = s.inCh

/-- R84: Multiply stores the wrapped product of its operands and completes; its frame. The wrap is D2. -/
def Obligations.MultiplyStoresTheWrappedProduct : Prop :=
  ∀ (m1 m2 m3 : Mode) (s : State) (a b d : Int),
    s.read 1 m1 = .ok a → s.read 2 m2 = .ok b → s.writeAddress 3 = .ok d →
    ∃ t, exec (.mul m1 m2 m3) s = .next t ∧ Stored s t d (wrap s.params.width (a * b)) 4 ∧ t.inCh = s.inCh

/-- R93: the encoding of LessThan; where its operands and destination resolve it stores 1 where the first operand is less
than the second as a signed integer, else 0, and completes, with its frame; where an access is out of range it raises
AddressFault and nothing else changes; digit 4 is ignored. -/
def Obligations.LessThanStoresOneOrZero : Prop :=
  (∀ w : Int, 0 ≤ w → w % 100 = 7 → decodeInstr w =
    .ok (.lessThan (modeOf (digit w.toNat 2)) (modeOf (digit w.toNat 3)) (modeOf (digit w.toNat 4)))) ∧
  ∀ (m1 m2 m3 : Mode) (s : State),
    (∀ a b d : Int, s.read 1 m1 = .ok a → s.read 2 m2 = .ok b → s.writeAddress 3 = .ok d →
      ∃ t, exec (.lessThan m1 m2 m3) s = .next t ∧ Stored s t d (if a < b then 1 else 0) 4 ∧ t.inCh = s.inCh) ∧
    (BadAccess s 1 m1 ∨ BadAccess s 2 m2 ∨ BadAccess s 3 .position →
      exec (.lessThan m1 m2 m3) s = .next (faulted s .addressFault)) ∧
    ∀ m, exec (.lessThan m1 m2 m) s = exec (.lessThan m1 m2 m3) s

/-- R94: the encoding of Equals; where its operands and destination resolve it stores 1 where the operands are equal,
else 0, and completes, with its frame; where an access is out of range it raises AddressFault and nothing else changes;
digit 4 is ignored. -/
def Obligations.EqualsStoresOneOrZero : Prop :=
  (∀ w : Int, 0 ≤ w → w % 100 = 8 → decodeInstr w =
    .ok (.equals (modeOf (digit w.toNat 2)) (modeOf (digit w.toNat 3)) (modeOf (digit w.toNat 4)))) ∧
  ∀ (m1 m2 m3 : Mode) (s : State),
    (∀ a b d : Int, s.read 1 m1 = .ok a → s.read 2 m2 = .ok b → s.writeAddress 3 = .ok d →
      ∃ t, exec (.equals m1 m2 m3) s = .next t ∧ Stored s t d (if a = b then 1 else 0) 4 ∧ t.inCh = s.inCh) ∧
    (BadAccess s 1 m1 ∨ BadAccess s 2 m2 ∨ BadAccess s 3 .position →
      exec (.equals m1 m2 m3) s = .next (faulted s .addressFault)) ∧
    ∀ m, exec (.equals m1 m2 m) s = exec (.equals m1 m2 m3) s

/-- R83, R84, R93, R94: where an operand or the destination does not resolve, each of the four raises AddressFault, and
nothing else changes. -/
def Obligations.StoringInstructionsRaiseAddressFault : Prop :=
  ∀ (m1 m2 m3 : Mode) (s : State),
    ((∀ a, s.read 1 m1 ≠ .ok a) ∨ (∀ b, s.read 2 m2 ≠ .ok b) ∨ (∀ d, s.writeAddress 3 ≠ .ok d)) →
    exec (.add m1 m2 m3) s = .next (faulted s .addressFault) ∧
    exec (.mul m1 m2 m3) s = .next (faulted s .addressFault) ∧
    exec (.lessThan m1 m2 m3) s = .next (faulted s .addressFault) ∧
    exec (.equals m1 m2 m3) s = .next (faulted s .addressFault)

/-- R62: digit C of Add, Multiply, LessThan and Equals and digit A of Input change nothing; `11101` acts as `1101`. The
wrap of the sum in the last clause is the spec's own decision D2 (log entry 12). -/
def Obligations.DestinationModeHasNoEffect : Prop :=
  (∀ (w w' : Int) (i i' : Instr) (s : State), decodeInstr w = .ok i → decodeInstr w' = .ok i' →
    (storesResult i = true ∧ w % 10000 = w' % 10000) ∨ (isInput i = true ∧ w % 100 = w' % 100) →
    exec i s = exec i' s) ∧
  decodeInstr 11101 = .ok (.add .immediate .immediate .immediate) ∧
  decodeInstr 1101 = .ok (.add .immediate .immediate .position) ∧
  ∀ (s : State) (a b d : Int), s.param 1 = .ok a → s.param 2 = .ok b → s.writeAddress 3 = .ok d →
    ∃ t, exec (.add .immediate .immediate .immediate) s = .next t ∧
      exec (.add .immediate .immediate .position) s = .next t ∧
      Stored s t d (wrap s.params.width (a + b)) 4 ∧ t.inCh = s.inCh

/-! ## Input and Output (spec/42_io.md) -/

/-- R88: where a value waits and the destination resolves, Input stores the next value, in either order; the value is
consumed, and the frame. -/
def Obligations.InputStoresTheNextValue : Prop :=
  ∀ (m1 : Mode) (s : State) (v d : Int) (rest : List Int),
    s.inCh.inq = v :: rest → s.writeAddress 1 = .ok d →
    ∃ t, exec (.input m1) s = .next t ∧ Stored s t d v 2 ∧ t.inCh.inq = rest ∧ t.inCh.inClosed = s.inCh.inClosed

/-- R87: where the input is open and empty, Input stalls with no state change at all, under PullFirst always and under
ResolveFirst where the destination resolves. -/
def Obligations.InputStallsOnOpenEmptyInput : Prop :=
  ∀ (m1 : Mode) (s : State),
    s.inCh.inq = [] → s.inCh.inClosed = false →
    (s.params.inputOrder = .resolveFirst → ∃ d, s.writeAddress 1 = .ok d) →
    exec (.input m1) s = .next s

/-- R88: where the input is closed and empty, Input raises InputExhausted and nothing else changes, under PullFirst
always and under ResolveFirst where the destination resolves. -/
def Obligations.InputExhaustionIsAFault : Prop :=
  ∀ (m1 : Mode) (s : State),
    s.inCh.inq = [] → s.inCh.inClosed = true →
    (s.params.inputOrder = .resolveFirst → ∃ d, s.writeAddress 1 = .ok d) →
    exec (.input m1) s = .next (faulted s .inputExhausted)

/-- R88: where Input's destination does not resolve, ResolveFirst raises AddressFault and pulls nothing. PullFirst raises
it once it has pulled a value, which stays consumed; with no value it stalls on an open input and raises InputExhausted on
a closed one, as if the destination resolved. -/
def Obligations.InputDestinationFault : Prop :=
  ∀ (m1 : Mode) (s : State), (∀ d, s.writeAddress 1 ≠ .ok d) →
    (s.params.inputOrder = .resolveFirst → exec (.input m1) s = .next (faulted s .addressFault)) ∧
    (s.params.inputOrder = .pullFirst →
      (∀ v rest, s.inCh.inq = v :: rest →
        exec (.input m1) s = .next (faulted (s.setIn ⟨rest, s.inCh.inClosed⟩) .addressFault)) ∧
      (s.inCh.inq = [] → s.inCh.inClosed = false → exec (.input m1) s = .next s) ∧
      (s.inCh.inq = [] → s.inCh.inClosed = true → exec (.input m1) s = .next (faulted s .inputExhausted)))

/-- R89: the encoding of Output; where its operand resolves it appends it to the output and completes, with its frame
(nothing stored, nothing pulled); where an access is out of range it raises AddressFault, and nothing is pushed or
changed. -/
def Obligations.OutputPushesItsOperand : Prop :=
  (∀ w : Int, 0 ≤ w → w % 100 = 4 → decodeInstr w = .ok (.output (modeOf (digit w.toNat 2)))) ∧
  ∀ (m1 : Mode) (s : State),
    (∀ a : Int, s.read 1 m1 = .ok a →
      ∃ t, exec (.output m1) s = .next t ∧ t.outCh.outq = s.outCh.outq ++ [a] ∧ t.pc = s.pc + 2 ∧
        (∀ x, t.mem.read x = s.mem.read x) ∧ t.mem = s.mem ∧ t.inCh = s.inCh ∧ t.run = s.run ∧ t.params = s.params) ∧
    (BadAccess s 1 m1 → exec (.output m1) s = .next (faulted s .addressFault))

/-! ## Jumps (spec/43_control_flow.md) -/

/-- R91: JumpIfTrue with a condition that is not 0 goes to its target, any word, and with condition 0 to `pc + 3`, under
Lazy whatever its target is and under Eager where the target resolves; only `pc` changes. That the target is not checked
here is the spec's own decision D4, and the two policies are its open parameter D6. -/
def Obligations.JumpIfTrueSelectsThePc : Prop :=
  ∀ (m1 m2 : Mode) (s : State) (c : Int), s.read 1 m1 = .ok c →
    (∀ t, c ≠ 0 → s.read 2 m2 = .ok t → exec (.jumpIfTrue m1 m2) s = .next (s.setPc t)) ∧
    (c = 0 → (s.params.jumpTargetRead = .lazy ∨ ∃ t, s.read 2 m2 = .ok t) →
      exec (.jumpIfTrue m1 m2) s = .next (s.setPc (s.pc + 3)))

/-- R92: JumpIfFalse with condition 0 goes to its target, and with any other condition to `pc + 3`, as R91. -/
def Obligations.JumpIfFalseSelectsThePc : Prop :=
  ∀ (m1 m2 : Mode) (s : State) (c : Int), s.read 1 m1 = .ok c →
    (∀ t, c = 0 → s.read 2 m2 = .ok t → exec (.jumpIfFalse m1 m2) s = .next (s.setPc t)) ∧
    (c ≠ 0 → (s.params.jumpTargetRead = .lazy ∨ ∃ t, s.read 2 m2 = .ok t) →
      exec (.jumpIfFalse m1 m2) s = .next (s.setPc (s.pc + 3)))

/-- R91, R92, R98: a jump whose condition does not resolve, or whose target is resolved (taken, or under Eager) and does
not, raises AddressFault and changes nothing else. -/
def Obligations.JumpsRaiseAddressFault : Prop :=
  ∀ (m1 m2 : Mode) (s : State),
    ((∀ c, s.read 1 m1 ≠ .ok c) →
      exec (.jumpIfTrue m1 m2) s = .next (faulted s .addressFault) ∧
      exec (.jumpIfFalse m1 m2) s = .next (faulted s .addressFault)) ∧
    (∀ c, s.read 1 m1 = .ok c → (∀ t, s.read 2 m2 ≠ .ok t) →
      (c ≠ 0 ∨ s.params.jumpTargetRead = .eager →
        exec (.jumpIfTrue m1 m2) s = .next (faulted s .addressFault)) ∧
      (c = 0 ∨ s.params.jumpTargetRead = .eager →
        exec (.jumpIfFalse m1 m2) s = .next (faulted s .addressFault)))

/-- R91, R117: a jump taken to its own index loops for ever without any state change. -/
def Obligations.JumpToSelfNeverEnds : Prop :=
  ∀ (m1 m2 : Mode) (s : State) (c : Int), s.Fetches (.jumpIfTrue m1 m2) →
    s.read 1 m1 = .ok c → c ≠ 0 → s.read 2 m2 = .ok s.pc →
    ∀ n, Sys2Proof.core.run n s = .next s

/-- R72, R90: a jump that is taken out of range completes; the next step raises AddressFault at the target, with no word.
That the jump itself does not fault is the spec's own decision D4, the category and the missing word are D5. -/
def Obligations.JumpOutOfRangeFaultsAtTheNextFetch : Prop :=
  ∀ (m1 m2 : Mode) (s : State) (c t : Int), s.read 1 m1 = .ok c → s.read 2 m2 = .ok t → ¬ s.InRange t →
    (s.Fetches (.jumpIfTrue m1 m2) ∧ c ≠ 0) ∨ (s.Fetches (.jumpIfFalse m1 m2) ∧ c = 0) →
    ∃ u, step s = .next u ∧ u.run = .running ∧ u.pc = t ∧
      step u = .next (u.setRun (.faulted ⟨t, none, .addressFault⟩))

/-! ## Halt, Unknown, faults (spec/45_halt_unknown.md, spec/60_exceptions.md) -/

/-- R95: Halt sets `run` to Halted and changes nothing else; no parameter word is read, so it halts at the last index
too. That `pc` stays is the spec's own decision D10. -/
def Obligations.HaltStopsTheMachine : Prop :=
  ∀ s : State, ∃ t, exec .halt s = .next t ∧ t.run = .halted ∧ t.pc = s.pc ∧ t.mem = s.mem ∧
    (∀ x, t.mem.read x = s.mem.read x) ∧ t.inCh = s.inCh ∧ t.outCh = s.outCh ∧ t.params = s.params ∧
    (s.Fetches .halt → step s = .next t)

/-- R96: a fetched word that is Unknown raises DecodeFault; the diagnostic holds `pc`, the word and the category. -/
def Obligations.UnknownWordRaisesDecodeFault : Prop :=
  ∀ (s : State) (w : Int), s.run = .running → s.fetch = .ok w → (decode w).kind = .unknown →
    ∃ t, step s = .next t ∧ t = s.setRun (.faulted ⟨s.pc, some w, .decodeFault⟩)

/-- R72: a step at a `pc` outside `[0, N)` raises AddressFault with no fault word. The category and the missing word are
the spec's own decision D5. -/
def Obligations.FetchOutOfRangeRaisesAddressFault : Prop :=
  ∀ s : State, s.run = .running → ¬ s.InRange s.pc →
    step s = .next (s.setRun (.faulted ⟨s.pc, none, .addressFault⟩))

/-- R100: fault entry records `pc`, the word there if there is one, and the category; `pc`, memory, output and the input
as it stands are unchanged, and the machine then has no step. A value Input pulled under PullFirst stays consumed. -/
def Obligations.FaultEntryRecordsTheDiagnostic : Prop :=
  (∀ (s : State) (f : FaultCat), ∃ t, s.raise f = .next t ∧
    t.run = .faulted ⟨s.pc, if 0 ≤ s.pc ∧ s.pc < (s.mem.size : Int) then some (s.mem.read s.pc.toNat) else none, f⟩ ∧
    t.pc = s.pc ∧ t.mem = s.mem ∧ t.outCh = s.outCh ∧ t.inCh = s.inCh ∧ t.params = s.params ∧ step t = .next t) ∧
  (∀ (m1 : Mode) (s : State) (v : Int) (rest : List Int), s.params.inputOrder = .pullFirst →
    s.inCh.inq = v :: rest → (∀ d, s.writeAddress 1 ≠ .ok d) →
    ∃ t, exec (.input m1) s = .next t ∧ t.inCh.inq = rest ∧ t.mem = s.mem ∧ t.pc = s.pc ∧ t.outCh = s.outCh)

/-- R101: faults are precise. Whatever instruction faults, memory, `pc`, output and parameters are those before the step,
the diagnostic names `pc` and the word there, and the input is unchanged but for the one value an Input of a PullFirst
machine has pulled before its destination faulted. -/
def Obligations.FaultsArePrecise : Prop :=
  ∀ (s t : State) (d : Diag), s.run = .running → step s = .next t → t.run = .faulted d →
    t.mem = s.mem ∧ t.pc = s.pc ∧ t.outCh = s.outCh ∧ t.params = s.params ∧
    d.faultPc = s.pc ∧ d.faultWord = s.word? s.pc ∧
    (t.inCh = s.inCh ∨
      (s.params.inputOrder = .pullFirst ∧ d.faultCat = .addressFault ∧ (∃ m1, s.Fetches (.input m1)) ∧
        ∃ v, s.inCh.inq = v :: t.inCh.inq ∧ t.inCh.inClosed = s.inCh.inClosed))

/-- R97, R98: what each category tells. DecodeFault comes of a fetched word that is Unknown, InputExhausted of an Input on
a closed empty queue, and AddressFault of a `pc` out of range or of an access of the fetched instruction out of range; the
diagnostic has no word where it is `pc`, which is the spec's own decision D5. -/
def Obligations.FaultCategoriesNameTheirCauses : Prop :=
  ∀ (s t : State) (d : Diag), s.run = .running → step s = .next t → t.run = .faulted d →
    (d.faultCat = .decodeFault ↔ ∃ w, s.fetch = .ok w ∧ (decode w).kind = .unknown) ∧
    (d.faultCat = .inputExhausted →
      (∃ m1, s.Fetches (.input m1)) ∧ s.inCh.inq = [] ∧ s.inCh.inClosed = true) ∧
    (d.faultCat = .addressFault → ¬ s.InRange s.pc ∨ ∃ i, s.Fetches i ∧ MakesBadAccess s i) ∧
    (d.faultWord = none ↔ ¬ s.InRange s.pc) ∧
    (d.faultWord = none → d.faultCat = .addressFault)

/-! ## The step and the run (spec/40_execution_step.md, spec/70_reset_and_hazards.md) -/

/-- R70: a Running machine whose word at `pc` decodes to an instruction runs exactly that instruction. -/
def Obligations.StepRunsTheDecodedInstruction : Prop :=
  ∀ (s : State) (i : Instr), s.Fetches i → step s = exec i s

/-- R71, R115, the spec's own decision D11: a Step asked of a terminal machine changes nothing, however often it is asked,
and no act of the host changes anything of it but the input it feeds or closes. -/
def Obligations.TerminalMachineNeverMoves : Prop :=
  ∀ s : State, s.Terminal → step s = .next s ∧ (∀ n, Sys2Proof.core.run n s = .next s) ∧
    ∀ (acts : List HostAct) (t : State), s.drive acts = some t → t = s.setIn t.inCh

/-- Log entry 9, read from R70, R82 and R100: every step of every state answers a next state. No step is refused or stops
outside the spec's own states: a fault is entered by a next state, and a terminal machine, which R71 says has no step,
answers the same state (the spec's own decision D11). -/
def Obligations.EveryStepAnswersANextState : Prop :=
  ∀ s : State, ∃ t, step s = .next t

/-- R78: a step writes at most one memory word, pulls at most one input value and pushes at most one output value; a
step that raises or stalls writes and pushes nothing. -/
def Obligations.StepMakesAtMostOneOfEachEffect : Prop :=
  ∀ s t : State, step s = .next t →
    (∀ x y, t.mem.read x ≠ s.mem.read x → t.mem.read y ≠ s.mem.read y → x = y) ∧
    (t.inCh.inq = s.inCh.inq ∨ ∃ v, s.inCh.inq = v :: t.inCh.inq) ∧
    (t.outCh.outq = s.outCh.outq ∨ ∃ v, t.outCh.outq = s.outCh.outq ++ [v]) ∧
    ((∃ d, t.run = .faulted d) ∨ (t.run = .running ∧ ∃ m1, s.Fetches (.input m1) ∧ t.pc = s.pc) →
      (∀ x, t.mem.read x = s.mem.read x) ∧ t.outCh.outq = s.outCh.outq)

/-- The invariant `State.Wf` (R6, R7, R11, R29; log entries 1 and 5) is kept by every step. Its bounds on the width and on
`N` are the spec's own decisions D1 and D12. -/
def Obligations.StepKeepsTheInvariant : Prop :=
  ∀ s t : State, s.Wf → step s = .next t → t.Wf

/-- The state after reset meets the invariant. Its width and its lack of a program are the model's choice (log entries 2,
6 and 7). -/
def Obligations.ResetMeetsTheInvariant : Prop := State.reset.Wf

/-- The invariant is kept along any list of the host's acts, steps and feeding and closing in any order (R110). -/
def Obligations.HostActsKeepTheInvariant : Prop :=
  ∀ (s t : State) (acts : List HostAct), s.Wf → s.drive acts = some t → t.Wf

/-- R7, R23, R10: `N` and the parameters never change, whatever the host does. -/
def Obligations.SizeAndParametersAreFixed : Prop :=
  ∀ (s t : State) (acts : List HostAct), s.drive acts = some t → t.mem.size = s.mem.size ∧ t.params = s.params

/-- R23: only Add, Multiply, Input, LessThan and Equals write memory. -/
def Obligations.OnlyStoringInstructionsWriteMemory : Prop :=
  ∀ (i : Instr) (s t : State), storesResult i = false → isInput i = false → exec i s = .next t → t.mem = s.mem

/-- R27, R95: a Running machine becomes Halted exactly by a step that fetches Halt. R116: from a machine that fetches Halt,
every run the host does not stop driving reaches Halted, whatever it feeds and whenever it closes (log entry 21). -/
def Obligations.HaltedExactlyByHalt : Prop :=
  (∀ s t : State, s.run = .running → step s = .next t → (t.run = .halted ↔ s.Fetches .halt)) ∧
  ∀ s : State, s.Fetches .halt → s.AlwaysHalts

/-- R46, R85, R109: along a run the input is consumed strictly in order and the output grows at its end, each by at most
one word a step. -/
def Obligations.ChannelsKeepTheirOrder : Prop :=
  ∀ (n : Nat) (s t : State), Sys2Proof.core.run n s = .next t →
    ∃ pulled pushed : List Int, s.inCh.inq = pulled ++ t.inCh.inq ∧ t.outCh.outq = s.outCh.outq ++ pushed ∧
      pulled.length ≤ n ∧ pushed.length ≤ n ∧ t.inCh.inClosed = s.inCh.inClosed

/-- R82: only an Input depends on the input device. Any other instruction does the same whatever the device holds, and
leaves the device as it is. -/
def Obligations.OnlyInputDependsOnTheInputDevice : Prop :=
  ∀ (i : Instr) (s t : State) (dev : InputDevice), isInput i = false → exec i s = .next t →
    t.inCh = s.inCh ∧ exec i (s.setIn dev) = .next (t.setIn dev)

/-- R109: the core never reads the output: whatever has been pushed before, a step pushes the same words and does the
same to everything else. -/
def Obligations.OutputIsNeverRead : Prop :=
  ∀ (s t : State) (dev : OutputDevice), step s = .next t →
    ∃ pushed : List Int, t.outCh.outq = s.outCh.outq ++ pushed ∧
      step (s.setOut dev) = .next (t.setOut ⟨dev.outq ++ pushed⟩)

/-- R8, D6: the two jump-target read policies differ only where a jump whose condition resolves is not taken and its target
does not resolve. -/
def Obligations.TargetReadPoliciesAgree : Prop :=
  ∀ (s t : State) (i : Instr) (p q : JumpTargetRead),
    (∀ m1 m2, i = .jumpIfTrue m1 m2 → PolicyFree s (fun c => c ≠ 0) m1 m2) →
    (∀ m1 m2, i = .jumpIfFalse m1 m2 → PolicyFree s (fun c => c = 0) m1 m2) →
    exec i (withTargetRead s p) = .next t → exec i (withTargetRead s q) = .next (withTargetRead t q)

/-- R9, D7: the two input orders differ only where an Input's destination does not resolve. -/
def Obligations.InputOrdersAgree : Prop :=
  ∀ (s t : State) (i : Instr) (p q : InputOrder),
    (∀ m1, i = .input m1 → ∃ d, s.writeAddress 1 = .ok d) →
    exec i (withInputOrder s p) = .next t → exec i (withInputOrder s q) = .next (withInputOrder t q)

/-- R48, R119: a store to the next instruction's index is what the next step fetches, whichever of the five storing
instructions makes it. The wrap of the sum and the product is D2. -/
def Obligations.NextFetchSeesTheStore : Prop :=
  ∀ (m1 m2 m3 : Mode) (s : State),
    (∀ a b : Int, s.read 1 m1 = .ok a → s.read 2 m2 = .ok b → s.writeAddress 3 = .ok (s.pc + 4) →
      (s.Fetches (.add m1 m2 m3) → NextFetches s 4 (wrap s.params.width (a + b))) ∧
      (s.Fetches (.mul m1 m2 m3) → NextFetches s 4 (wrap s.params.width (a * b))) ∧
      (s.Fetches (.lessThan m1 m2 m3) → NextFetches s 4 (if a < b then 1 else 0)) ∧
      (s.Fetches (.equals m1 m2 m3) → NextFetches s 4 (if a = b then 1 else 0))) ∧
    ∀ (v : Int) (rest : List Int), s.Fetches (.input m1) → s.inCh.inq = v :: rest →
      s.writeAddress 1 = .ok (s.pc + 2) → NextFetches s 2 v

/-! ## The host (spec/60_exceptions.md R108 to R111, spec/70_reset_and_hazards.md R112) -/

/-- R112, R113: construction copies the program word for word, sets `pc` to 0 and `run` to Running with no diagnostic,
keeps the supplied input, and starts the output empty. -/
def Obligations.ConstructionSetsEveryPieceOfState : Prop :=
  ∀ (p : Params) (prog : List Int) (source : InputDevice) (s : State), construct p prog source = some s →
    s.mem.size = prog.length ∧ (∀ i, ∀ h : i < prog.length, s.mem.read i = prog[i]) ∧ s.pc = 0 ∧ s.run = .running ∧
    s.run.diag? = none ∧ s.inCh = source ∧ s.outCh.outq = [] ∧ s.params = p ∧ s.Wf

/-- R6, R7, D12, D13: construction is refused exactly where the width is below 32, the program is too long, or a program
word or supplied input value does not fit. -/
def Obligations.ConstructionRefusesWhatDoesNotFit : Prop :=
  ∀ (p : Params) (prog : List Int) (source : InputDevice),
    (∃ s, construct p prog source = some s) ↔
      32 ≤ p.width ∧ prog.length + 4 ≤ 2 ^ (p.width - 1) ∧ (∀ v ∈ prog, Word.Fits p.width v) ∧
      ∀ v ∈ source.inq, Word.Fits p.width v

/-- R87, R108, R110: feeding a word that fits ends a stall: the Input then stores that word. -/
def Obligations.FeedingEndsAStall : Prop :=
  ∀ (m1 : Mode) (s : State) (v d : Int), s.Fetches (.input m1) → s.inCh = ⟨[], false⟩ → s.writeAddress 1 = .ok d →
    Word.Fits s.params.width v →
    step s = .next s ∧ ∃ t u, s.feed [v] = some t ∧ step t = .next u ∧ Stored s u d v 2 ∧ u.inCh = ⟨[], false⟩

/-- R85, R108: once closed and empty, the input stays so: it cannot be fed, `Pull` answers Exhausted, and no act of the
host changes it. -/
def Obligations.ExhaustedInputStaysExhausted : Prop :=
  ∀ (s t : State) (acts : List HostAct), s.inCh = ⟨[], true⟩ → s.drive acts = some t →
    t.inCh = ⟨[], true⟩ ∧ t.pull = (.exhausted, t) ∧ ∀ ws, t.feed ws = none

/-- R27 to R29: the status port, with the codes of the spec's own decision D18. Outside a fault the category code is 0; that
the other fields, which then mean nothing, are shown as absent is the model's choice (log entry 16). -/
def Obligations.StatusPortShowsTheCodes : Prop :=
  ∀ s : State,
    (s.run = .running → s.statusPort = ⟨0, 0, none, none, none⟩) ∧
    (s.run = .halted → s.statusPort = ⟨1, 0, none, none, none⟩) ∧
    ∀ d, s.run = .faulted d →
      s.statusPort.runState = 2 ∧ s.statusPort.faultPc = some d.faultPc ∧ s.statusPort.faultWord = d.faultWord ∧
      s.statusPort.faultWordValid = some d.faultWord.isSome ∧
      (d.faultCat = .decodeFault → s.statusPort.faultCat = 1) ∧
      (d.faultCat = .addressFault → s.statusPort.faultCat = 2) ∧
      (d.faultCat = .inputExhausted → s.statusPort.faultCat = 3)

/-- R51, R110, R115: a terminal machine is inspected for its `N` final words and its final state; a Running one is not.
R116: a run ends in at most one way, with one result: every ended state of it has the same final memory, final state and
output, and before the end there is none. -/
def Obligations.InspectionGivesTheFinalState : Prop :=
  (∀ s : State,
    (s.run = .running → s.inspect = none ∧ s.result = none) ∧
    (s.Terminal → ∃ ws, s.inspect = some (ws, s.run) ∧ s.result = some ((ws, s.run), s.outCh.outq) ∧
      ws.length = s.mem.size ∧ ∀ i, ∀ h : i < ws.length, ws[i] = s.mem.read i)) ∧
  ∀ (s t u : State) (acts : Nat → HostAct) (n m : Nat), s.runAt acts n = some t → s.runAt acts m = some u →
    t.Terminal → u.Terminal → t.result = u.result
end

