-- ==== Sys2Proof/Laws/Alu.lean ====
section
/-! SUPPORT. What the ALU's results are: words, and the exact result where it fits (spec/40_execution_step.md R79). -/

namespace Sys2Proof.Machine

/-- `2^W` is twice `2^(W-1)`, for a width that is not 0. -/
theorem two_pow_width {width : Nat} (h : 1 ≤ width) :
    ((2 ^ width : Nat) : Int) = 2 * ((2 ^ (width - 1) : Nat) : Int) := by
  obtain ⟨n, rfl⟩ : ∃ n, width = n + 1 := ⟨width - 1, by omega⟩
  simp only [Nat.add_sub_cancel]
  push_cast
  ring

theorem half_pos (width : Nat) : (0 : Int) < ((2 ^ (width - 1) : Nat) : Int) := by
  exact_mod_cast Nat.two_pow_pos _

/-- A wrapped value is a word. -/
theorem wrap_fits {width : Nat} (h : 1 ≤ width) (v : Int) : Word.Fits width (wrap width v) := by
  have h2 := two_pow_width h
  have hp := half_pos width
  simp only [Word.Fits, minWord, maxWord, wrap]
  generalize ((2 ^ width : Nat) : Int) = full at *
  generalize ((2 ^ (width - 1) : Nat) : Int) = half at *
  have := Int.emod_nonneg (v + half) (b := full) (by omega)
  have := Int.emod_lt_of_pos (v + half) (b := full) (by omega)
  omega

/-- A value that is a word is its own wrapped value. -/
theorem wrap_of_fits {width : Nat} (h : 1 ≤ width) {v : Int} (hv : Word.Fits width v) : wrap width v = v := by
  have h2 := two_pow_width h
  simp only [Word.Fits, minWord, maxWord] at hv
  simp only [wrap]
  generalize ((2 ^ width : Nat) : Int) = full at *
  generalize ((2 ^ (width - 1) : Nat) : Int) = half at *
  rw [Int.emod_eq_of_lt (by omega) (by omega)]
  omega

/-- A wrapped value is congruent to the value modulo `2^W`. -/
theorem wrap_emod (width : Nat) (v : Int) :
    wrap width v % ((2 ^ width : Nat) : Int) = v % ((2 ^ width : Nat) : Int) := by
  unfold wrap
  rw [Int.sub_emod, Int.emod_emod, ← Int.sub_emod, add_sub_cancel_right]

/-- `2^31` is at most `2^(W-1)`, for a width the spec allows. -/
theorem half_ge {width : Nat} (h : 32 ≤ width) : 2 ^ 31 ≤ 2 ^ (width - 1) :=
  Nat.pow_le_pow_right (by norm_num) (by omega)

theorem aluLt_eq (a b : Int) : aluLt a b = 0 ∨ aluLt a b = 1 := by
  unfold aluLt; split <;> simp

theorem aluEq_eq (a b : Int) : aluEq a b = 0 ∨ aluEq a b = 1 := by
  unfold aluEq; split <;> simp

/-- 0 and 1 are words of every width the spec allows. -/
theorem bit_fits {width : Nat} (h : 32 ≤ width) {v : Int} (hv : v = 0 ∨ v = 1) : Word.Fits width v := by
  have := half_ge h
  have hc : ((2 ^ 31 : Nat) : Int) ≤ ((2 ^ (width - 1) : Nat) : Int) := by exact_mod_cast this
  norm_num only at hc
  simp only [Word.Fits, minWord, maxWord]
  generalize ((2 ^ (width - 1) : Nat) : Int) = half at *
  rcases hv with rfl | rfl <;> omega

@[simp] theorem aluNz_iff (a : Int) : aluNz a = true ↔ a ≠ 0 := by simp [aluNz]

end Sys2Proof.Machine
end

