-- ==== Sys2Proof/Laws/Memory.lean ====
section
/-! SUPPORT. The laws of memory: a read after a write, the canonical form kept by every operation, and that a canonical
memory is determined by its size and its reads (spec/20_memory.md R37, R45; log entry 5). -/

namespace Sys2Proof.Machine

@[simp] theorem Memory.write_size (m : Memory) (a : Nat) (v : Int) : (m.write a v).size = m.size := rfl

/-! ## Reads after writes, of every list -/

theorem cellsRead_dropWhile_le (cells : List Cell) (a x : Nat) (h : a < x) :
    cellsRead (cells.dropWhile fun c => decide (c.1 ≤ a)) x = cellsRead cells x := by
  induction cells with
  | nil => rfl
  | cons c rest ih =>
    obtain ⟨b, w⟩ := c
    by_cases hb : b ≤ a
    · have h1 : ¬ x < b := by omega
      have h2 : x ≠ b := by omega
      simp [hb, ih, cellsRead, h1, h2]
    · simp [hb]

theorem cellsRead_dropWhile_of_le (cells : List Cell) (a x : Nat) (h : x ≤ a) :
    cellsRead (cells.dropWhile fun c => decide (c.1 ≤ a)) x = Memory.unlisted := by
  induction cells with
  | nil => rfl
  | cons c rest ih =>
    obtain ⟨b, w⟩ := c
    by_cases hb : b ≤ a
    · simp [hb, ih]
    · have : x < b := by omega
      simp [hb, cellsRead, this]

theorem cellsRead_cellsWrite (cells : List Cell) (a x : Nat) (v : Int) :
    cellsRead (cellsWrite cells a v) x = if x = a then v else cellsRead cells x := by
  induction cells with
  | nil =>
    simp only [cellsWrite]
    split <;> simp only [cellsRead] <;> split_ifs <;> simp_all
  | cons c rest ih =>
    obtain ⟨b, w⟩ := c
    simp only [cellsWrite]
    by_cases hab : a < b
    · by_cases hv : v = Memory.unlisted
      · by_cases hx : x = a
        · subst hx; simp [hab, hv, cellsRead]
        · simp [hab, hv, hx]
      · rcases lt_trichotomy x a with hx | hx | hx
        · have h1 : x < b := by omega
          have h2 : x ≠ a := by omega
          simp [hab, hv, cellsRead, hx, h1, h2]
        · simp [hab, hv, cellsRead, hx]
        · have h1 : ¬ x < a := by omega
          have h2 : x ≠ a := by omega
          simp [hab, hv, cellsRead, h1, h2]
    · by_cases heq : a = b
      · subst heq
        by_cases hv : v = Memory.unlisted
        · rcases lt_trichotomy x a with hx | hx | hx
          · have h2 : x ≠ a := by omega
            simp [hv, cellsRead_dropWhile_of_le rest a x hx.le, cellsRead, hx, h2]
          · subst hx; simp [hv, cellsRead_dropWhile_of_le rest x x le_rfl]
          · have h1 : ¬ x < a := by omega
            have h2 : x ≠ a := by omega
            simp [hv, cellsRead_dropWhile_le rest a x hx, cellsRead, h1, h2]
        · rcases lt_trichotomy x a with hx | hx | hx
          · have h2 : x ≠ a := by omega
            simp [hv, cellsRead, hx, h2]
          · simp [hv, cellsRead, hx]
          · have h1 : ¬ x < a := by omega
            have h2 : x ≠ a := by omega
            simp [hv, cellsRead, h1, h2]
      · simp only [hab, heq, if_false, cellsRead, ih]
        by_cases hx : x = a
        · subst hx; simp [hab, heq]
        · simp [hx]

/-- A read after a write to the same index gives the word written; every other index reads as before (R45). -/
theorem Memory.read_write (m : Memory) (a x : Nat) (v : Int) :
    (m.write a v).read x = if x = a then v else m.read x := cellsRead_cellsWrite m.cells a x v

@[simp] theorem Memory.read_write_same (m : Memory) (a : Nat) (v : Int) : (m.write a v).read a = v := by
  simp [Memory.read_write]

theorem Memory.read_write_other (m : Memory) {a x : Nat} (v : Int) (h : x ≠ a) :
    (m.write a v).read x = m.read x := by simp [Memory.read_write, h]

/-! ## The canonical form -/

/-- A listed word after a write is the word written, where it is not what an unlisted index holds, or was listed. -/
theorem mem_cellsWrite {cells : List Cell} {a : Nat} {v : Int} {c : Cell} (h : c ∈ cellsWrite cells a v) :
    (c = (a, v) ∧ v ≠ Memory.unlisted) ∨ c ∈ cells := by
  induction cells with
  | nil => simp only [cellsWrite] at h; split at h <;> simp_all
  | cons d rest ih =>
    obtain ⟨b, w⟩ := d
    simp only [cellsWrite] at h
    split at h
    · split at h
      · exact .inr h
      · rcases List.mem_cons.1 h with h | h
        · exact .inl ⟨h, by assumption⟩
        · exact .inr h
    · split at h
      · split at h
        · exact .inr (List.mem_cons_of_mem _ ((List.dropWhile_sublist _).subset h))
        · rcases List.mem_cons.1 h with h | h
          · exact .inl ⟨h, by assumption⟩
          · exact .inr (List.mem_cons_of_mem _ h)
      · rcases List.mem_cons.1 h with h | h
        · exact .inr (by simp [h])
        · exact (ih h).imp_right (List.mem_cons_of_mem _)

theorem cellsWrite_sorted {cells : List Cell} (a : Nat) (v : Int)
    (h : cells.Pairwise fun c d => c.1 < d.1) : (cellsWrite cells a v).Pairwise fun c d => c.1 < d.1 := by
  induction cells with
  | nil => simp only [cellsWrite]; split <;> simp
  | cons c rest ih =>
    obtain ⟨b, w⟩ := c
    rw [List.pairwise_cons] at h
    simp only [cellsWrite]
    split
    · split
      · exact List.pairwise_cons.2 h
      · refine List.pairwise_cons.2 ⟨fun d hd => ?_, List.pairwise_cons.2 h⟩
        rcases List.mem_cons.1 hd with rfl | hd
        · simpa
        · have := h.1 d hd; simp only at this ⊢; omega
    · split
      · split
        · exact h.2.sublist (List.dropWhile_sublist _)
        · next heq _ => subst heq; exact List.pairwise_cons.2 h
      · refine List.pairwise_cons.2 ⟨fun d hd => ?_, ih h.2⟩
        rcases mem_cellsWrite hd with ⟨rfl, -⟩ | hd
        · simp only; omega
        · exact h.1 d hd

/-- A write inside the memory keeps the canonical form. -/
theorem Memory.wf_write {m : Memory} {a : Nat} (v : Int) (h : m.wf) (ha : a < m.size) : (m.write a v).wf := by
  refine ⟨cellsWrite_sorted a v h.1, fun c hc => ?_⟩
  rcases mem_cellsWrite hc with ⟨rfl, hv⟩ | hc
  · exact ⟨hv, ha⟩
  · exact h.2 c hc

theorem Memory.wf_writeWords {m : Memory} (ws : List Int) {start : Nat} (h : m.wf) (hs : start + ws.length ≤ m.size) :
    (m.writeWords start ws).wf := by
  induction ws generalizing m start with
  | nil => exact h
  | cons v vs ih =>
    rw [List.length_cons] at hs
    exact ih (Memory.wf_write v h (by omega)) (by simp only [Memory.write_size]; omega)

theorem Memory.wf_resize {m : Memory} {n : Nat} (h : m.wf) (hn : m.size ≤ n) : ({ m with size := n } : Memory).wf :=
  ⟨h.1, fun c hc => ⟨(h.2 c hc).1, lt_of_lt_of_le (h.2 c hc).2 hn⟩⟩

theorem mem_cellsOfWords {prog : List Int} {start : Nat} {c : Cell} (h : c ∈ cellsOfWords start prog) :
    c.2 ≠ Memory.unlisted ∧ start ≤ c.1 ∧ c.1 < start + prog.length ∧ c.2 ∈ prog := by
  induction prog generalizing start with
  | nil => simp [cellsOfWords] at h
  | cons v vs ih =>
    simp only [cellsOfWords] at h
    split at h
    · obtain ⟨h1, h2, h3, h4⟩ := ih h
      exact ⟨h1, by omega, by rw [List.length_cons]; omega, List.mem_cons_of_mem _ h4⟩
    · rcases List.mem_cons.1 h with rfl | h
      · exact ⟨by assumption, le_rfl, by simp, by simp⟩
      · obtain ⟨h1, h2, h3, h4⟩ := ih h
        exact ⟨h1, by omega, by rw [List.length_cons]; omega, List.mem_cons_of_mem _ h4⟩

theorem cellsOfWords_sorted (prog : List Int) (start : Nat) :
    (cellsOfWords start prog).Pairwise fun c d => c.1 < d.1 := by
  induction prog generalizing start with
  | nil => simp [cellsOfWords]
  | cons v vs ih =>
    simp only [cellsOfWords]
    split
    · exact ih _
    · exact List.pairwise_cons.2 ⟨fun d hd => by have := (mem_cellsOfWords hd).2.1; simp only; omega, ih _⟩

/-- The memory a program is copied into is canonical. -/
theorem Memory.wf_ofWords (prog : List Int) : (Memory.ofWords prog).wf :=
  ⟨cellsOfWords_sorted prog 0, fun c hc => by
    have := mem_cellsOfWords hc
    exact ⟨this.1, by simpa [Memory.ofWords] using this.2.2.1⟩⟩

theorem Memory.wf_reset : State.reset.mem.wf := by decide

/-! ## Reads and listed words -/

/-- A word read is what an unlisted index holds, or a listed word. -/
theorem cellsRead_cases (cells : List Cell) (a : Nat) :
    cellsRead cells a = Memory.unlisted ∨ (a, cellsRead cells a) ∈ cells := by
  induction cells with
  | nil => exact .inl rfl
  | cons c rest ih =>
    obtain ⟨b, w⟩ := c
    simp only [cellsRead]
    split
    · exact .inl rfl
    · split
      · next h => subst h; exact .inr (by simp)
      · exact ih.imp_right (List.mem_cons_of_mem _)

/-- In a rising list, a listed word is what its index reads as. -/
theorem cellsRead_of_mem {cells : List Cell} (h : cells.Pairwise fun c d => c.1 < d.1) {c : Cell} (hc : c ∈ cells) :
    cellsRead cells c.1 = c.2 := by
  induction cells with
  | nil => simp at hc
  | cons d rest ih =>
    obtain ⟨b, w⟩ := d
    rw [List.pairwise_cons] at h
    rcases List.mem_cons.1 hc with rfl | hc
    · simp [cellsRead]
    · have := h.1 c hc
      simp only at this
      have h1 : ¬ c.1 < b := by omega
      have h2 : c.1 ≠ b := by omega
      simp [cellsRead, h1, h2, ih h.2 hc]

/-- Two canonical memories of one size with the same reads are the same data. -/
theorem Memory.ext_of_read {m m' : Memory} (h : m.wf) (h' : m'.wf) (hs : m.size = m'.size)
    (hr : ∀ a, m.read a = m'.read a) : m = m' := by
  have key : ∀ {k l : List Cell}, k.Pairwise (fun c d => c.1 < d.1) → l.Pairwise (fun c d => c.1 < d.1) →
      (∀ c ∈ k, c.2 ≠ Memory.unlisted) → (∀ a, cellsRead k a = cellsRead l a) → ∀ c ∈ k, c ∈ l := by
    intro k l hk _ hn heq c hc
    have h1 := cellsRead_of_mem hk hc
    rcases cellsRead_cases l c.1 with h2 | h2
    · exact absurd (by rw [← h1, heq, h2]) (hn c hc)
    · rwa [← heq, h1] at h2
  have hperm : m.cells.Perm m'.cells := by
    refine (List.perm_ext_iff_of_nodup (h.1.imp (fun hlt heq => ?_)) (h'.1.imp (fun hlt heq => ?_))).2 fun c =>
      ⟨key h.1 h'.1 (fun c hc => (h.2 c hc).1) hr c, key h'.1 h.1 (fun c hc => (h'.2 c hc).1) (fun a => (hr a).symm) c⟩
    · rw [heq] at hlt; exact lt_irrefl _ hlt
    · rw [heq] at hlt; exact lt_irrefl _ hlt
  have hc : m.cells = m'.cells := hperm.eq_of_pairwise (fun _ _ _ _ h1 h2 => absurd h1 (lt_asymm h2)) h.1 h'.1
  cases m; cases m'; simp_all

theorem cellsRead_cellsOfWords (prog : List Int) (start i : Nat) :
    cellsRead (cellsOfWords start prog) (start + i) = prog.getD i Memory.unlisted := by
  induction prog generalizing start i with
  | nil => rfl
  | cons v vs ih =>
    have below : cellsRead (cellsOfWords (start + 1) vs) start = Memory.unlisted := by
      rcases cellsRead_cases (cellsOfWords (start + 1) vs) start with h | h
      · exact h
      · have := (mem_cellsOfWords h).2.1; simp only at this; omega
    simp only [cellsOfWords]
    cases i with
    | zero =>
      by_cases hv : v = Memory.unlisted
      · simpa [hv] using below
      · simp [hv, cellsRead]
    | succ i =>
      have := ih (start + 1) i
      rw [show start + 1 + i = start + (i + 1) by omega] at this
      by_cases hv : v = Memory.unlisted
      · simpa [hv] using this
      · simpa [hv, cellsRead] using this

/-- `M[i] = prog[i]` after a program is copied in (R112). -/
theorem Memory.read_ofWords (prog : List Int) (i : Nat) :
    (Memory.ofWords prog).read i = prog.getD i Memory.unlisted := by
  simpa [Memory.read, Memory.ofWords] using cellsRead_cellsOfWords prog 0 i

end Sys2Proof.Machine
end

