-- ==== Sys2Proof/Laws/State.lean ====
section
/-! SUPPORT. What each field update leaves in each field of State, and the fields of the state after reset. -/

namespace Sys2Proof.Machine

@[simp] theorem State.setPc_params (s : State) (target : Int) : (s.setPc target).params = s.params := rfl
@[simp] theorem State.setPc_mem (s : State) (target : Int) : (s.setPc target).mem = s.mem := rfl
@[simp] theorem State.setPc_pc (s : State) (target : Int) : (s.setPc target).pc = target := rfl
@[simp] theorem State.setPc_run (s : State) (target : Int) : (s.setPc target).run = s.run := rfl
@[simp] theorem State.setPc_inCh (s : State) (target : Int) : (s.setPc target).inCh = s.inCh := rfl
@[simp] theorem State.setPc_outCh (s : State) (target : Int) : (s.setPc target).outCh = s.outCh := rfl

@[simp] theorem State.setRun_params (s : State) (r : RunState) : (s.setRun r).params = s.params := rfl
@[simp] theorem State.setRun_mem (s : State) (r : RunState) : (s.setRun r).mem = s.mem := rfl
@[simp] theorem State.setRun_pc (s : State) (r : RunState) : (s.setRun r).pc = s.pc := rfl
@[simp] theorem State.setRun_run (s : State) (r : RunState) : (s.setRun r).run = r := rfl
@[simp] theorem State.setRun_inCh (s : State) (r : RunState) : (s.setRun r).inCh = s.inCh := rfl
@[simp] theorem State.setRun_outCh (s : State) (r : RunState) : (s.setRun r).outCh = s.outCh := rfl

@[simp] theorem State.setMem_params (s : State) (m : Memory) : (s.setMem m).params = s.params := rfl
@[simp] theorem State.setMem_mem (s : State) (m : Memory) : (s.setMem m).mem = m := rfl
@[simp] theorem State.setMem_pc (s : State) (m : Memory) : (s.setMem m).pc = s.pc := rfl
@[simp] theorem State.setMem_run (s : State) (m : Memory) : (s.setMem m).run = s.run := rfl
@[simp] theorem State.setMem_inCh (s : State) (m : Memory) : (s.setMem m).inCh = s.inCh := rfl
@[simp] theorem State.setMem_outCh (s : State) (m : Memory) : (s.setMem m).outCh = s.outCh := rfl

@[simp] theorem State.setIn_params (s : State) (d : InputDevice) : (s.setIn d).params = s.params := rfl
@[simp] theorem State.setIn_mem (s : State) (d : InputDevice) : (s.setIn d).mem = s.mem := rfl
@[simp] theorem State.setIn_pc (s : State) (d : InputDevice) : (s.setIn d).pc = s.pc := rfl
@[simp] theorem State.setIn_run (s : State) (d : InputDevice) : (s.setIn d).run = s.run := rfl
@[simp] theorem State.setIn_inCh (s : State) (d : InputDevice) : (s.setIn d).inCh = d := rfl
@[simp] theorem State.setIn_outCh (s : State) (d : InputDevice) : (s.setIn d).outCh = s.outCh := rfl

@[simp] theorem State.setOut_params (s : State) (d : OutputDevice) : (s.setOut d).params = s.params := rfl
@[simp] theorem State.setOut_mem (s : State) (d : OutputDevice) : (s.setOut d).mem = s.mem := rfl
@[simp] theorem State.setOut_pc (s : State) (d : OutputDevice) : (s.setOut d).pc = s.pc := rfl
@[simp] theorem State.setOut_run (s : State) (d : OutputDevice) : (s.setOut d).run = s.run := rfl
@[simp] theorem State.setOut_inCh (s : State) (d : OutputDevice) : (s.setOut d).inCh = s.inCh := rfl
@[simp] theorem State.setOut_outCh (s : State) (d : OutputDevice) : (s.setOut d).outCh = d := rfl

@[simp] theorem State.push_params (s : State) (v : Int) : (s.push v).params = s.params := rfl
@[simp] theorem State.push_mem (s : State) (v : Int) : (s.push v).mem = s.mem := rfl
@[simp] theorem State.push_pc (s : State) (v : Int) : (s.push v).pc = s.pc := rfl
@[simp] theorem State.push_run (s : State) (v : Int) : (s.push v).run = s.run := rfl
@[simp] theorem State.push_inCh (s : State) (v : Int) : (s.push v).inCh = s.inCh := rfl
@[simp] theorem State.push_outq (s : State) (v : Int) : (s.push v).outCh.outq = s.outCh.outq ++ [v] := rfl

/-- Setting a field to what it holds changes nothing. -/
@[simp] theorem State.setPc_self (s : State) : s.setPc s.pc = s := rfl
@[simp] theorem State.setMem_self (s : State) : s.setMem s.mem = s := rfl
@[simp] theorem State.setIn_self (s : State) : s.setIn s.inCh = s := rfl

end Sys2Proof.Machine
end

