-- ==== Sys2Proof/Laws/Ops.lean ====
section
/-! SUPPORT. What each shared operation answers: the accesses, the resolver, the channels and the ends of a step. -/

namespace Sys2Proof.Machine

/-! ## Accesses -/

theorem State.memRead_ok_iff {s : State} {a v : Int} :
    s.memRead a = .ok v ↔ s.InRange a ∧ s.mem.read a.toNat = v := by
  unfold State.memRead
  by_cases h : s.InRange a
  · rw [if_pos h, Except.ok.injEq, and_iff_right h]
  · rw [if_neg h]; exact ⟨fun e => (nomatch e), fun e => absurd e.1 h⟩

theorem State.memRead_error_iff {s : State} {a : Int} {f : FaultCat} :
    s.memRead a = .error f ↔ ¬ s.InRange a ∧ f = .addressFault := by
  unfold State.memRead
  by_cases h : s.InRange a
  · rw [if_pos h]; exact ⟨fun e => (nomatch e), fun e => absurd h e.1⟩
  · rw [if_neg h, Except.error.injEq, and_iff_right h, eq_comm]

theorem State.memWrite_of_inRange {s : State} {a : Int} (v : Int) (h : s.InRange a) :
    s.memWrite a v = .ok (s.setMem (s.mem.write a.toNat v)) := by
  unfold State.memWrite; simp [h]

theorem State.fetch_ok_iff {s : State} {w : Int} :
    s.fetch = .ok w ↔ s.InRange s.pc ∧ s.mem.read s.pc.toNat = w := State.memRead_ok_iff

theorem State.word?_of_fetch {s : State} {w : Int} (h : s.fetch = .ok w) : s.word? s.pc = some w := by
  obtain ⟨h1, h2⟩ := State.fetch_ok_iff.1 h
  simp [State.word?, h1, h2]

/-! ## The resolver -/

theorem State.param_ok_iff {s : State} {k : Nat} {p : Int} :
    s.param k = .ok p ↔ s.InRange (s.pc + (k : Int)) ∧ s.mem.read (s.pc + (k : Int)).toNat = p := State.memRead_ok_iff

theorem State.param_error_iff {s : State} {k : Nat} {f : FaultCat} :
    s.param k = .error f ↔ ¬ s.InRange (s.pc + (k : Int)) ∧ f = .addressFault := State.memRead_error_iff

theorem State.read_immediate (s : State) (k : Nat) : s.read k .immediate = s.param k := by
  unfold State.read; split <;> simp_all

theorem State.read_position_ok_iff {s : State} {k : Nat} {v : Int} :
    s.read k .position = .ok v ↔ ∃ p, s.param k = .ok p ∧ s.memRead p = .ok v := by
  unfold State.read; split <;> simp_all

/-- An operand that is read was read through its parameter word. -/
theorem State.param_of_read {s : State} {k : Nat} {m : Mode} {v : Int} (h : s.read k m = .ok v) :
    ∃ p, s.param k = .ok p := by
  unfold State.read at h
  split at h
  · cases h
  · next p hp => exact ⟨p, hp⟩

/-- Every fault the resolver raises is AddressFault (R77). -/
theorem State.read_error {s : State} {k : Nat} {m : Mode} {f : FaultCat} (h : s.read k m = .error f) :
    f = .addressFault := by
  unfold State.read at h
  split at h
  · next hp => cases h; exact (State.param_error_iff.1 hp).2
  · split at h
    · cases h
    · exact (State.memRead_error_iff.1 h).2

theorem State.writeAddress_ok_iff {s : State} {k : Nat} {d : Int} :
    s.writeAddress k = .ok d ↔ s.param k = .ok d ∧ s.InRange d := by
  unfold State.writeAddress
  split
  · next h => simp only [h, reduceCtorEq, false_and]
  · next p h =>
    simp only [h, Except.ok.injEq]
    by_cases hp : s.InRange p
    · rw [if_pos hp, Except.ok.injEq]; exact ⟨fun e => ⟨e, e ▸ hp⟩, And.left⟩
    · rw [if_neg hp]; exact ⟨fun e => (nomatch e), fun ⟨e, hd⟩ => absurd (e ▸ hd) hp⟩

/-- Every fault the resolver raises is AddressFault (R77). -/
theorem State.writeAddress_error {s : State} {k : Nat} {f : FaultCat} (h : s.writeAddress k = .error f) :
    f = .addressFault := by
  unfold State.writeAddress at h
  split at h
  · next hp => cases h; exact (State.param_error_iff.1 hp).2
  · split at h <;> cases h; rfl

/-- The resolver looks at nothing but memory and `pc`. -/
theorem State.param_congr {s t : State} (hm : s.mem = t.mem) (hp : s.pc = t.pc) (k : Nat) : s.param k = t.param k := by
  unfold State.param State.memRead State.InRange; rw [hm, hp]

theorem State.read_congr {s t : State} (hm : s.mem = t.mem) (hp : s.pc = t.pc) (k : Nat) (m : Mode) :
    s.read k m = t.read k m := by
  unfold State.read; rw [State.param_congr hm hp k]
  unfold State.memRead State.InRange; rw [hm]

theorem State.writeAddress_congr {s t : State} (hm : s.mem = t.mem) (hp : s.pc = t.pc) (k : Nat) :
    s.writeAddress k = t.writeAddress k := by
  unfold State.writeAddress; rw [State.param_congr hm hp k]
  unfold State.InRange; rw [hm]

/-! ## The channels -/

theorem State.pull_value {s : State} {v : Int} {rest : List Int} (h : s.inCh.inq = v :: rest) :
    s.pull = (.value v, s.setIn ⟨rest, s.inCh.inClosed⟩) := by
  unfold State.pull; split <;> simp_all

theorem State.pull_wait {s : State} (h : s.inCh.inq = []) (hc : s.inCh.inClosed = false) : s.pull = (.wait, s) := by
  unfold State.pull; split <;> simp_all

theorem State.pull_exhausted {s : State} (h : s.inCh.inq = []) (hc : s.inCh.inClosed = true) :
    s.pull = (.exhausted, s) := by
  unfold State.pull; split <;> simp_all

/-- What `Pull` can answer, and what it leaves (R85). -/
theorem State.pull_cases (s : State) :
    (∃ v rest, s.inCh.inq = v :: rest ∧ s.pull = (.value v, s.setIn ⟨rest, s.inCh.inClosed⟩)) ∨
    (s.inCh.inq = [] ∧ s.inCh.inClosed = false ∧ s.pull = (.wait, s)) ∨
    (s.inCh.inq = [] ∧ s.inCh.inClosed = true ∧ s.pull = (.exhausted, s)) := by
  rcases hq : s.inCh.inq with _ | ⟨v, rest⟩
  · rcases hc : s.inCh.inClosed with _ | _
    · exact .inr (.inl ⟨rfl, rfl, State.pull_wait hq hc⟩)
    · exact .inr (.inr ⟨rfl, rfl, State.pull_exhausted hq hc⟩)
  · exact .inl ⟨v, rest, rfl, by simpa using State.pull_value hq⟩

/-! ## The ends of a step -/

@[simp] theorem State.attempt_ok {α : Type} (s : State) (a : α) (k : α → Result) : s.attempt (.ok a) k = k a := rfl

@[simp] theorem State.attempt_error {α : Type} (s : State) (f : FaultCat) (k : α → Result) :
    s.attempt (.error f) k = s.raise f := rfl

/-- The state a fault entry leaves (R100). -/
def State.faultedState (s : State) (f : FaultCat) : State := s.setRun (.faulted ⟨s.pc, s.word? s.pc, f⟩)

theorem State.raise_eq (s : State) (f : FaultCat) : s.raise f = .next (s.faultedState f) := rfl

theorem State.complete_seq (s : State) (len : Nat) : s.complete (.seq len) = .next (s.setPc (s.pc + (len : Int))) := rfl

theorem State.complete_tgt (s : State) (t : Int) : s.complete (.tgt t) = .next (s.setPc t) := rfl

end Sys2Proof.Machine
end

