-- ==== Sys2Proof/Laws/Exec.lean ====
section
/-! SUPPORT. What each instruction's body can do, one inversion lemma a body, and everything one step can do. -/

namespace Sys2Proof.Machine

/-! ## The bodies -/

/-- The F3RRD body when its three parameters resolve. -/
theorem State.storeResult_ok {s : State} {op : Int → Int → Int} {m1 m2 : Mode} {a b d : Int}
    (h1 : s.read 1 m1 = .ok a) (h2 : s.read 2 m2 = .ok b) (h3 : s.writeAddress 3 = .ok d) :
    s.storeResult op m1 m2 = .next ((s.setMem (s.mem.write d.toNat (op a b))).setPc (s.pc + 4)) := by
  have hd := (State.writeAddress_ok_iff.1 h3).2
  simp [State.storeResult, h1, h2, h3, State.memWrite_of_inRange _ hd, State.complete_seq]

/-- The F3RRD body stores one result, or raises AddressFault and does nothing else. -/
theorem State.storeResult_cases (s : State) (op : Int → Int → Int) (m1 m2 : Mode) :
    s.storeResult op m1 m2 = .next (s.faultedState .addressFault) ∨
    ∃ a b d, s.read 1 m1 = .ok a ∧ s.read 2 m2 = .ok b ∧ s.writeAddress 3 = .ok d ∧
      s.storeResult op m1 m2 = .next ((s.setMem (s.mem.write d.toNat (op a b))).setPc (s.pc + 4)) := by
  rcases h1 : s.read 1 m1 with f | a
  · left; simp [State.storeResult, h1, State.read_error h1, State.raise_eq]
  rcases h2 : s.read 2 m2 with f | b
  · left; simp [State.storeResult, h1, h2, State.read_error h2, State.raise_eq]
  rcases h3 : s.writeAddress 3 with f | d
  · left; simp [State.storeResult, h1, h2, h3, State.writeAddress_error h3, State.raise_eq]
  · exact .inr ⟨a, b, d, rfl, rfl, rfl, State.storeResult_ok h1 h2 h3⟩

theorem State.storeInput_ok {s : State} {d : Int} (v : Int) (h : s.InRange d) :
    s.storeInput d v = .next ((s.setMem (s.mem.write d.toNat v)).setPc (s.pc + 2)) := by
  simp [State.storeInput, State.memWrite_of_inRange v h, State.complete_seq]

/-- Input stores the value it pulls, stalls on an open empty input, or raises; under PullFirst an AddressFault leaves the
value consumed. -/
theorem execInput_cases (m1 : Mode) (s : State) :
    (∃ v rest d, s.inCh.inq = v :: rest ∧ s.writeAddress 1 = .ok d ∧ execInput m1 s =
      .next (((s.setIn ⟨rest, s.inCh.inClosed⟩).setMem (s.mem.write d.toNat v)).setPc (s.pc + 2))) ∨
    (s.inCh.inq = [] ∧ s.inCh.inClosed = false ∧
      (s.params.inputOrder = .resolveFirst → ∃ d, s.writeAddress 1 = .ok d) ∧ execInput m1 s = .next s) ∨
    (s.inCh.inq = [] ∧ s.inCh.inClosed = true ∧
      (s.params.inputOrder = .resolveFirst → ∃ d, s.writeAddress 1 = .ok d) ∧
      execInput m1 s = .next (s.faultedState .inputExhausted)) ∨
    (s.writeAddress 1 = .error .addressFault ∧ s.params.inputOrder = .resolveFirst ∧
      execInput m1 s = .next (s.faultedState .addressFault)) ∨
    (∃ v rest, s.inCh.inq = v :: rest ∧ s.writeAddress 1 = .error .addressFault ∧ s.params.inputOrder = .pullFirst ∧
      execInput m1 s = .next ((s.setIn ⟨rest, s.inCh.inClosed⟩).faultedState .addressFault)) := by
  have hcongr (rest : List Int) : (s.setIn ⟨rest, s.inCh.inClosed⟩).writeAddress 1 = s.writeAddress 1 :=
    State.writeAddress_congr rfl rfl 1
  rcases ho : s.params.inputOrder with _ | _ <;>
    rcases s.pull_cases with ⟨v, rest, hq, hp⟩ | ⟨hq, hc, hp⟩ | ⟨hq, hc, hp⟩ <;>
    rcases hw : s.writeAddress 1 with f | d <;>
    first
      | (obtain rfl := State.writeAddress_error hw
         simp_all [execInput, State.stall, State.raise_eq])
      | (have hd := (State.writeAddress_ok_iff.1 hw).2
         have hd' : (s.setIn ⟨[], s.inCh.inClosed⟩).InRange d := hd
         have hst (rest : List Int) (v : Int) : (s.setIn ⟨rest, s.inCh.inClosed⟩).storeInput d v =
            .next (((s.setIn ⟨rest, s.inCh.inClosed⟩).setMem (s.mem.write d.toNat v)).setPc (s.pc + 2)) :=
           State.storeInput_ok v hd
         simp_all [execInput, State.stall, State.raise_eq])

/-- Output pushes its operand, or raises AddressFault and does nothing else. -/
theorem execOutput_cases (m1 : Mode) (s : State) :
    execOutput m1 s = .next (s.faultedState .addressFault) ∨
    ∃ a, s.read 1 m1 = .ok a ∧ execOutput m1 s = .next ((s.push a).setPc (s.pc + 2)) := by
  rcases h1 : s.read 1 m1 with f | a
  · left; simp [execOutput, h1, State.read_error h1, State.raise_eq]
  · right; exact ⟨a, rfl, by simp [execOutput, h1, State.complete_seq]⟩

/-- A conditional jump moves `pc` to its target or past itself, or raises AddressFault, and does nothing else. -/
theorem State.jumpWhen_cases (s : State) (taken : Int → Bool) (m1 m2 : Mode) :
    s.jumpWhen taken m1 m2 = .next (s.faultedState .addressFault) ∨
    (∃ c t, s.read 1 m1 = .ok c ∧ taken c = true ∧ s.read 2 m2 = .ok t ∧
      s.jumpWhen taken m1 m2 = .next (s.setPc t)) ∨
    (∃ c, s.read 1 m1 = .ok c ∧ taken c = false ∧ s.jumpWhen taken m1 m2 = .next (s.setPc (s.pc + 3))) := by
  rcases h1 : s.read 1 m1 with f | c
  · left; simp [State.jumpWhen, h1, State.read_error h1, State.raise_eq]
  rcases h2 : s.read 2 m2 with f | t
  · obtain rfl := State.read_error h2
    rcases hp : s.params.jumpTargetRead with _ | _ <;> rcases ht : taken c with _ | _ <;>
      simp [State.jumpWhen, h1, h2, hp, ht, State.raise_eq, State.complete_seq]
  · rcases hp : s.params.jumpTargetRead with _ | _ <;> rcases ht : taken c with _ | _ <;>
      simp [State.jumpWhen, h1, h2, hp, ht, State.complete_seq, State.complete_tgt]

/-! ## Everything a body can do -/

/-- Everything an instruction's body can do to a state. -/
inductive Effect (s : State) : State → Prop where
  | raised (f : FaultCat) : Effect s (s.faultedState f)
  | pulledRaised (v : Int) (rest : List Int) (hq : s.inCh.inq = v :: rest) :
      Effect s ((s.setIn ⟨rest, s.inCh.inClosed⟩).faultedState .addressFault)
  | stalled (hq : s.inCh.inq = []) : Effect s s
  | halted : Effect s (s.setRun .halted)
  | stored (d v : Int) (hd : s.InRange d) (hv : 32 ≤ s.params.width → Word.Fits s.params.width v)
      (hp : s.InRange (s.pc + 3)) : Effect s ((s.setMem (s.mem.write d.toNat v)).setPc (s.pc + 4))
  | pulledStored (d v : Int) (rest : List Int) (hq : s.inCh.inq = v :: rest) (hd : s.InRange d)
      (hp : s.InRange (s.pc + 1)) :
      Effect s (((s.setIn ⟨rest, s.inCh.inClosed⟩).setMem (s.mem.write d.toNat v)).setPc (s.pc + 2))
  | pushed (m1 : Mode) (a : Int) (ha : s.read 1 m1 = .ok a) : Effect s ((s.push a).setPc (s.pc + 2))
  | jumped (m2 : Mode) (t : Int) (ht : s.read 2 m2 = .ok t) : Effect s (s.setPc t)
  | passed (hp : s.InRange (s.pc + 1)) : Effect s (s.setPc (s.pc + 3))

theorem State.inRange_of_param {s : State} {k : Nat} {p : Int} (h : s.param k = .ok p) :
    s.InRange (s.pc + (k : Int)) := (State.param_ok_iff.1 h).1

theorem State.storeResult_effect (s : State) (op : Int → Int → Int) (m1 m2 : Mode)
    (hv : ∀ a b, 32 ≤ s.params.width → Word.Fits s.params.width (op a b)) :
    ∃ t, s.storeResult op m1 m2 = .next t ∧ Effect s t := by
  rcases s.storeResult_cases op m1 m2 with h | ⟨a, b, d, -, -, h3, h⟩
  · exact ⟨_, h, .raised _⟩
  · obtain ⟨hp, hd⟩ := State.writeAddress_ok_iff.1 h3
    exact ⟨_, h, .stored d _ hd (hv a b) (by simpa using State.inRange_of_param hp)⟩

theorem State.jumpWhen_effect (s : State) (taken : Int → Bool) (m1 m2 : Mode) :
    ∃ t, s.jumpWhen taken m1 m2 = .next t ∧ Effect s t := by
  rcases s.jumpWhen_cases taken m1 m2 with h | ⟨c, t, -, -, h2, h⟩ | ⟨c, h1, -, h⟩
  · exact ⟨_, h, .raised _⟩
  · exact ⟨_, h, .jumped m2 t h2⟩
  · obtain ⟨p, hp⟩ := State.param_of_read h1
    exact ⟨_, h, .passed (by simpa using State.inRange_of_param hp)⟩

/-- Every instruction answers a next state, and does one of the things `Effect` lists. -/
theorem exec_effect (i : Instr) (s : State) : ∃ t, exec i s = .next t ∧ Effect s t := by
  cases i with
  | add m1 m2 m3 => exact s.storeResult_effect _ m1 m2 fun a b h => wrap_fits (by omega) _
  | mul m1 m2 m3 => exact s.storeResult_effect _ m1 m2 fun a b h => wrap_fits (by omega) _
  | input m1 =>
    rcases execInput_cases m1 s with
      ⟨v, rest, d, hq, hw, h⟩ | ⟨hq, -, -, h⟩ | ⟨-, -, -, h⟩ | ⟨-, -, h⟩ | ⟨v, rest, hq, -, -, h⟩
    · obtain ⟨hp, hd⟩ := State.writeAddress_ok_iff.1 hw
      exact ⟨_, h, .pulledStored d v rest hq hd (by simpa using State.inRange_of_param hp)⟩
    · exact ⟨_, h, .stalled hq⟩
    · exact ⟨_, h, .raised _⟩
    · exact ⟨_, h, .raised _⟩
    · exact ⟨_, h, .pulledRaised v rest hq⟩
  | output m1 =>
    rcases execOutput_cases m1 s with h | ⟨a, h1, h⟩
    · exact ⟨_, h, .raised _⟩
    · exact ⟨_, h, .pushed m1 a h1⟩
  | jumpIfTrue m1 m2 => exact s.jumpWhen_effect _ m1 m2
  | jumpIfFalse m1 m2 => exact s.jumpWhen_effect _ m1 m2
  | lessThan m1 m2 m3 => exact s.storeResult_effect _ m1 m2 fun a b h => bit_fits h (aluLt_eq a b)
  | equals m1 m2 m3 => exact s.storeResult_effect _ m1 m2 fun a b h => bit_fits h (aluEq_eq a b)
  | halt => exact ⟨_, rfl, .halted⟩

/-! ## The step -/

theorem step_terminal {s : State} (h : s.run ≠ .running) : step s = .next s := by
  unfold step; split <;> simp_all [State.noStep]

theorem step_fetch_error {s : State} {f : FaultCat} (hr : s.run = .running) (h : s.fetch = .error f) :
    step s = .next (s.faultedState .addressFault) := by
  obtain ⟨-, rfl⟩ := State.memRead_error_iff.1 h
  simp [step, hr, h, State.raise_eq]

theorem step_unknown {s : State} {w : Int} {e : DecodeReject} (hr : s.run = .running) (h : s.fetch = .ok w)
    (hd : decodeInstr w = .error e) : step s = .next (s.faultedState .decodeFault) := by
  simp [step, hr, h, hd, execUnknown, State.raise_eq]

/-- Everything a step can be: none (R71), a fault at the fetch (R72), a fault of an Unknown word (R96), or a body. -/
theorem step_cases (s : State) :
    (s.run ≠ .running ∧ step s = .next s) ∨
    (s.run = .running ∧ ¬ s.InRange s.pc ∧ step s = .next (s.faultedState .addressFault)) ∨
    (∃ w e, s.run = .running ∧ s.fetch = .ok w ∧ decodeInstr w = .error e ∧
      step s = .next (s.faultedState .decodeFault)) ∨
    (∃ w i, s.run = .running ∧ s.fetch = .ok w ∧ decodeInstr w = .ok i ∧ step s = exec i s) := by
  by_cases hr : s.run = .running
  · right
    rcases hf : s.fetch with f | w
    · exact .inl ⟨hr, (State.memRead_error_iff.1 hf).1, step_fetch_error hr hf⟩
    · right
      rcases hd : decodeInstr w with e | i
      · exact .inl ⟨w, e, hr, rfl, hd, step_unknown hr hf hd⟩
      · exact .inr ⟨w, i, hr, rfl, hd, by simp [step, hr, hf, hd]⟩
  · exact .inl ⟨hr, step_terminal hr⟩

end Sys2Proof.Machine
end

