-- ==== Sys2Proof/Laws/PerInstr.lean ====
section
/-! SUPPORT. Statements made once per instruction: the shape of its opcode word. -/

namespace Sys2Proof.Laws.EncodeShape

/-- The word of an instruction has its opcode in the two lowest digits, and above the digits of its own parameters it
has none (spec/30_encoding.md R59, R68). -/
def Statement (i : Instr) : Prop :=
  0 ≤ encode i ∧ encode i % 100 = (i.opcode : Int) ∧ encode i < ((10 ^ (i.len + 1) : Nat) : Int)

theorem add (m1 m2 m3 : Mode) : Statement (.add m1 m2 m3) := by
  cases m1 <;> cases m2 <;> cases m3 <;> (unfold Statement; decide)

theorem mul (m1 m2 m3 : Mode) : Statement (.mul m1 m2 m3) := by
  cases m1 <;> cases m2 <;> cases m3 <;> (unfold Statement; decide)

theorem input (m1 : Mode) : Statement (.input m1) := by
  cases m1 <;> (unfold Statement; decide)

theorem output (m1 : Mode) : Statement (.output m1) := by
  cases m1 <;> (unfold Statement; decide)

theorem jumpIfTrue (m1 m2 : Mode) : Statement (.jumpIfTrue m1 m2) := by
  cases m1 <;> cases m2 <;> (unfold Statement; decide)

theorem jumpIfFalse (m1 m2 : Mode) : Statement (.jumpIfFalse m1 m2) := by
  cases m1 <;> cases m2 <;> (unfold Statement; decide)

theorem lessThan (m1 m2 m3 : Mode) : Statement (.lessThan m1 m2 m3) := by
  cases m1 <;> cases m2 <;> cases m3 <;> (unfold Statement; decide)

theorem equals (m1 m2 m3 : Mode) : Statement (.equals m1 m2 m3) := by
  cases m1 <;> cases m2 <;> cases m3 <;> (unfold Statement; decide)

theorem halt : Statement .halt := by unfold Statement; decide

end Sys2Proof.Laws.EncodeShape
end

