-- ==== Sys2Proof/Laws/Run.lean ====
section
/-! SUPPORT. Runs of the machine: the equations of `Host.Core.run` and of the host's acts, what one act can do, and that
what every step, or every act, keeps every run keeps. -/

namespace Sys2Proof.Machine

theorem run_zero (s : State) : Sys2Proof.core.run 0 s = .next s := rfl

theorem run_succ {s t : State} (n : Nat) (h : step s = .next t) :
    Sys2Proof.core.run (n + 1) s = Sys2Proof.core.run n t := by
  have h' : Sys2Proof.core.step s = .next t := h
  simp only [Host.Core.run, h']

/-- What relates a state to itself, and to what every step leaves, relates it to what every run leaves. -/
theorem run_induction {P : Nat → State → State → Prop} (refl : ∀ s, P 0 s s)
    (cons : ∀ n s u t, step s = .next u → P n u t → P (n + 1) s t) (total : ∀ s, ∃ u, step s = .next u) :
    ∀ n s t, Sys2Proof.core.run n s = .next t → P n s t := by
  intro n
  induction n with
  | zero => intro s t h; cases h; exact refl s
  | succ n ih =>
    intro s t h
    obtain ⟨u, hu⟩ := total s
    rw [run_succ n hu] at h
    exact cons n s u t hu (ih u t h)

/-! ## The host's acts -/

/-- All an act can do: a step, words appended to an open input, or the input closed. -/
theorem State.act_cases {s t : State} {a : HostAct} (h : s.act a = some t) :
    (a = .step ∧ step s = .next t) ∨
    (∃ ws, a = .feed ws ∧ s.inCh.inClosed = false ∧ wordsWellFormed s.params.width ws = true ∧
      t = s.setIn ⟨s.inCh.inq ++ ws, false⟩) ∨
    (a = .close ∧ t = s.setIn ⟨s.inCh.inq, true⟩) := by
  cases a with
  | step =>
    simp only [State.act] at h
    split at h
    · next u hu => cases h; exact .inl ⟨rfl, hu⟩
    · cases h
    · cases h
  | feed ws =>
    simp only [State.act, State.feed] at h
    split at h
    · next hc =>
      cases h
      simp only [Bool.and_eq_true, Bool.not_eq_true'] at hc
      exact .inr (.inl ⟨ws, rfl, hc.1, hc.2, by rw [hc.1]⟩)
    · cases h
  | close => cases h; exact .inr (.inr ⟨rfl, rfl⟩)

theorem State.drive_nil (s : State) : s.drive [] = some s := rfl

theorem State.drive_cons {s t : State} {a : HostAct} (h : s.act a = some t) (acts : List HostAct) :
    s.drive (a :: acts) = t.drive acts := by
  simp only [State.drive, h]

/-- Acts made after acts. -/
theorem State.drive_append (s : State) (acts more : List HostAct) :
    s.drive (acts ++ more) = (s.drive acts).bind fun t => t.drive more := by
  induction acts generalizing s with
  | nil => rfl
  | cons a acts ih =>
    simp only [List.cons_append, State.drive]
    split
    · exact ih _
    · rfl

/-- What relates a state to itself, and to what every act leaves, relates it to what every list of acts leaves. -/
theorem drive_induction {P : State → State → Prop} (refl : ∀ s, P s s)
    (cons : ∀ s u t a, s.act a = some u → P u t → P s t) : ∀ acts s t, State.drive s acts = some t → P s t := by
  intro acts
  induction acts with
  | nil => intro s t h; cases h; exact refl s
  | cons a acts ih =>
    intro s t h
    simp only [State.drive] at h
    split at h
    · next u hu => exact cons s u t a hu (ih u t h)
    · cases h

/-- One more act of an unending list. -/
theorem State.runAt_succ (s : State) (acts : Nat → HostAct) (n : Nat) :
    s.runAt acts (n + 1) = (s.runAt acts n).bind fun t => t.act (acts n) := by
  unfold State.runAt
  rw [List.range_succ, List.map_append, State.drive_append]
  congr 1
  funext t
  simp only [List.map_cons, List.map_nil, State.drive]
  cases t.act (acts n) <;> rfl

/-- A stalled machine waits on an open, empty input (R33). -/
theorem State.stalled_input_empty {s : State} (h : s.Stalled) : s.inCh = ⟨[], false⟩ := by
  obtain ⟨⟨m1, hr, w, hf, hd⟩, hs⟩ := h
  have he : execInput m1 s = .next s := by
    simp only [step, hr, hf, State.attempt_ok, hd] at hs
    exact hs
  rcases execInput_cases m1 s with ⟨v, rest, d, -, -, g⟩ | ⟨hq, hc, -, -⟩ | ⟨-, -, -, g⟩ | ⟨-, -, g⟩ | ⟨v, rest, -, -, -, g⟩
  · have hp := congrArg State.pc (Host.Outcome.next.inj (g.symm.trans he))
    simp at hp
  · rcases hi : s.inCh with ⟨q, c⟩
    rw [hi] at hq hc
    exact hq ▸ hc ▸ rfl
  all_goals
    have hp := congrArg State.run (Host.Outcome.next.inj (g.symm.trans he))
    rw [hr] at hp
    cases hp

/-- Acts that may be made from every state of a kind, and lead to one of that kind, are allowed for ever. -/
theorem State.allows_of_kept {P : State → Prop} {s : State} {acts : Nat → HostAct} (start : P s)
    (keep : ∀ n t, P t → ∃ u, t.act (acts n) = some u ∧ P u) : s.Allows acts := by
  have hall : ∀ n, ∃ t, s.runAt acts n = some t ∧ P t := by
    intro n
    induction n with
    | zero => exact ⟨s, rfl, start⟩
    | succ n ih =>
      obtain ⟨t, ht, hp⟩ := ih
      obtain ⟨u, hu, hq⟩ := keep n t hp
      exact ⟨u, by rw [State.runAt_succ, ht, Option.bind_some, hu], hq⟩
  exact fun n => (hall n).imp fun _ h => h.1

end Sys2Proof.Machine
end

