-- ==== Sys2Proof/Tests/Slice0.lean ====
section
/-! SUPPORT. The model's own tests, and for each statement with hypotheses a concrete case that meets them. Expected
results are those of spec/95_test_vectors.md, named by their ids there. -/

namespace Sys2Proof.Tests

open Sys2Proof Sys2Proof.Machine Sys2Proof.Claims

/-! ## Small machines -/

/-- A 32-bit machine with the spec's default policies. -/
def small (prog : List Int) (input : List Int := []) (closed : Bool := true) : State :=
  State.ofProgram ⟨32, .lazy, .pullFirst⟩ prog ⟨input, closed⟩

/-- The same machine with the other value of both policies. -/
def smallAlt (prog : List Int) (input : List Int := []) (closed : Bool := true) : State :=
  State.ofProgram ⟨32, .eager, .resolveFirst⟩ prog ⟨input, closed⟩

/-- The state one step later. -/
def after (s : State) : State :=
  match step s with
  | .next t => t
  | .fault _ => s
  | .refused _ => s

/-- All words of memory. -/
def words (s : State) : List Int := s.mem.toWords

/-! ## Well-formedness: one ill-formed term for each check -/

theorem test_wf_width : Params.wellFormed ⟨31, .lazy, .pullFirst⟩ = false ∧
    Params.wellFormed ⟨32, .lazy, .pullFirst⟩ = true := by decide

theorem test_wf_words : wordsWellFormed 32 [2147483648] = false ∧ wordsWellFormed 32 [-2147483649] = false ∧
    wordsWellFormed 32 [2147483647, -2147483648] = true := by decide

theorem test_wf_program_length : programWellFormed ⟨3, .lazy, .pullFirst⟩ [0] = false ∧
    programWellFormed ⟨3, .lazy, .pullFirst⟩ [] = true := by decide

/-- AR7: the word does not fit `W = 32`. -/
theorem test_wf_program_word :
    programWellFormed ⟨32, .lazy, .pullFirst⟩ [1101, 9223372036854775807, 1, 5, 99, 0] = false ∧
    programWellFormed ⟨64, .lazy, .pullFirst⟩ [1101, 9223372036854775807, 1, 5, 99, 0] = true := by decide

theorem test_wf_destinations : (Instr.add .position .position .immediate).wellFormed = false ∧
    (Instr.mul .position .position .immediate).wellFormed = false ∧ (Instr.input .immediate).wellFormed = false ∧
    (Instr.lessThan .position .position .immediate).wellFormed = false ∧
    (Instr.equals .position .position .immediate).wellFormed = false ∧
    (Instr.equals .immediate .immediate .position).wellFormed = true := by decide

/-- A decimal integer too large for 32 bits, as an operand. -/
def tooLarge : AsmOperand := .imm (.lit 2147483648)

/-- An operand that fits, written `[7]`. -/
def seven : AsmOperand := .pos (.lit 7)

theorem test_wf_asm_operands : AsmValue.wellFormed 32 (.lit 2147483648) = false ∧ tooLarge.wellFormed 32 = false ∧
    AsmOperand.wellFormed 32 (.pos (.lit (-2147483649))) = false ∧
    AsmOperand.destWellFormed 32 (.imm (.lit 7)) = false ∧
    AsmOperand.destWellFormed 32 (.pos (.lit 2147483648)) = false ∧ seven.destWellFormed 32 = true := by decide

theorem test_wf_asm_first : AsmInstr.wellFormed 32 (.add tooLarge seven seven) = false ∧
    AsmInstr.wellFormed 32 (.mul tooLarge seven seven) = false ∧
    AsmInstr.wellFormed 32 (.lessThan tooLarge seven seven) = false ∧
    AsmInstr.wellFormed 32 (.equals tooLarge seven seven) = false ∧
    AsmInstr.wellFormed 32 (.output tooLarge) = false ∧
    AsmInstr.wellFormed 32 (.jumpIfTrue tooLarge seven) = false ∧
    AsmInstr.wellFormed 32 (.jumpIfFalse tooLarge seven) = false := by decide

theorem test_wf_asm_second : AsmInstr.wellFormed 32 (.add seven tooLarge seven) = false ∧
    AsmInstr.wellFormed 32 (.mul seven tooLarge seven) = false ∧
    AsmInstr.wellFormed 32 (.lessThan seven tooLarge seven) = false ∧
    AsmInstr.wellFormed 32 (.equals seven tooLarge seven) = false ∧
    AsmInstr.wellFormed 32 (.jumpIfTrue seven tooLarge) = false ∧
    AsmInstr.wellFormed 32 (.jumpIfFalse seven tooLarge) = false := by decide

theorem test_wf_asm_destination : AsmInstr.wellFormed 32 (.add seven seven (.imm (.lit 7))) = false ∧
    AsmInstr.wellFormed 32 (.mul seven seven (.imm (.lit 7))) = false ∧
    AsmInstr.wellFormed 32 (.lessThan seven seven (.imm (.lit 7))) = false ∧
    AsmInstr.wellFormed 32 (.equals seven seven (.imm (.lit 7))) = false ∧
    AsmInstr.wellFormed 32 (.input (.imm (.lit 7))) = false ∧
    AsmInstr.wellFormed 32 (.add seven seven seven) = true := by decide

theorem test_wf_asm_lines : AsmLine.wellFormed 32 (.jmp tooLarge) = false ∧
    AsmLine.wellFormed 32 (.mov tooLarge seven) = false ∧ AsmLine.wellFormed 32 (.mov seven (.imm (.lit 7))) = false ∧
    AsmLine.wellFormed 32 (.word (.lit 2147483648)) = false ∧
    AsmLine.wellFormed 32 (.instr (.output tooLarge)) = false := by decide

/-! ## Decoding: words written digit by digit (`Z C B A` and the two opcode digits, R54) -/

theorem test_decode_add : decodeInstr (1 * 10000 + 2 * 1000 + 3 * 100 + 0 * 10 + 1) =
    .ok (.add .position .position .immediate) := by decide

theorem test_decode_mul : decodeInstr (2 * 100000 + 0 * 10000 + 1 * 1000 + 0 * 100 + 0 * 10 + 2) =
    .ok (.mul .position .immediate .position) := by decide

theorem test_decode_input : decodeInstr (1 * 100 + 0 * 10 + 3) = .ok (.input .immediate) := by decide

theorem test_decode_output : decodeInstr (1 * 1000 + 1 * 100 + 0 * 10 + 4) = .ok (.output .immediate) := by decide

theorem test_decode_jump_if_true : decodeInstr (1 * 1000 + 0 * 100 + 0 * 10 + 5) =
    .ok (.jumpIfTrue .position .immediate) := by decide

theorem test_decode_jump_if_false : decodeInstr (0 * 1000 + 1 * 100 + 0 * 10 + 6) =
    .ok (.jumpIfFalse .immediate .position) := by decide

theorem test_decode_less_than : decodeInstr (1 * 1000 + 1 * 100 + 0 * 10 + 7) =
    .ok (.lessThan .immediate .immediate .position) := by decide

theorem test_decode_equals : decodeInstr (1 * 10000 + 0 * 1000 + 0 * 100 + 0 * 10 + 8) =
    .ok (.equals .position .position .immediate) := by decide

theorem test_decode_halt : decodeInstr 99 = .ok .halt ∧ decodeInstr 11199 = .ok .halt ∧
    decodeInstr 1000099 = .ok .halt := by decide

theorem test_decode_unknown : decodeInstr 0 = .error .unknownOpcode ∧ decodeInstr 9 = .error .unknownOpcode ∧
    decodeInstr 98 = .error .unknownOpcode ∧ decodeInstr 100 = .error .unknownOpcode ∧
    decodeInstr 123456 = .error .unknownOpcode ∧ decodeInstr (-1) = .error .negativeWord ∧
    decodeInstr (-99) = .error .negativeWord := by decide

/-- R66: the aliases of `1`. -/
theorem test_decode_aliases : decode 201 = decode 1 ∧ decode 90901 = decode 1 ∧ decode 100001 = decode 1 := by decide

theorem test_encode : encode (.mul .position .immediate .position) = 1002 ∧
    encode (.equals .immediate .immediate .immediate) = 11108 ∧ encode .halt = 99 := by decide

theorem test_table_word : decodeTableWord 32 1002 = some (.mul .position .immediate .position) ∧
    decodeTableWord 8 99 = some .halt ∧ decodeTableWord 32 4294967295 = none ∧ decodeTableWord 8 9 = none := by decide

/-- `1, 0, 0, 0` run from reset: `M[0] <- M[0] + M[0]`. -/
theorem test_fetch_word : (after (State.reset.withFetchWord 128 1)).pc = 4 ∧
    words (after (State.reset.withFetchWord 128 1)) = [2, 0, 0, 0] := by decide

theorem test_fetch_word_halt : (after (State.reset.withFetchWord 8 99)).run = .halted := by decide

/-! ## The assembler -/

/-- P1: the Doubler. -/
theorem test_assemble_doubler : assemble 32
    [.instr (.input (.pos (.lit 9))), .instr (.add (.pos (.lit 9)) (.pos (.lit 9)) (.pos (.lit 9))),
      .instr (.output (.pos (.lit 9))), .instr .halt, .word (.lit 0)] = some [3, 9, 1, 9, 9, 9, 4, 9, 99, 0] := by
  decide

/-- P2: the Countdown, whose jump names a label. -/
theorem test_assemble_countdown : assemble 32
    [.instr (.input (.pos (.label "n"))), .label "loop", .instr (.output (.pos (.label "n"))),
      .instr (.add (.imm (.lit (-1))) (.pos (.label "n")) (.pos (.label "n"))),
      .instr (.jumpIfTrue (.pos (.label "n")) (.imm (.label "loop"))), .instr .halt, .word (.lit 0), .label "n",
      .word (.lit 0)] = some [3, 13, 4, 13, 101, -1, 13, 13, 1005, 13, 2, 99, 0, 0] := by
  decide

/-- E8 disassembled: its Multiply and its data word. -/
theorem test_disassemble : disassemble [1002, 4, 3, 4, 33] =
    [.instr (.mul (.pos (.lit 4)) (.imm (.lit 3)) (.pos (.lit 4))), .word (.lit 33)] := by decide

/-! ## One step -/

/-- AR2: the destination is both operands' index, and the old value is used twice. -/
theorem test_add_in_place : words (after (small [1, 5, 5, 5, 99, 7])) = [1, 5, 5, 5, 99, 14] := by decide

/-- AR4: `2147483647 + 1` at `W = 32`. -/
theorem test_add_wraps : (after (small [1101, 2147483647, 1, 5, 99, 0])).mem.read 5 = -2147483648 ∧
    (after (small [1101, 2147483647, 1, 5, 99, 0])).pc = 4 := by decide

/-- E8: the product replaces the next opcode. -/
theorem test_mul_next_opcode : words (after (small [1002, 4, 3, 4, 33])) = [1002, 4, 3, 4, 99] := by decide

/-- MU6: `-2147483648 * -1` at `W = 32`. -/
theorem test_mul_wraps : (after (small [1102, -2147483648, -1, 5, 99, 0])).mem.read 5 = -2147483648 := by decide

/-- IN8: Input's mode digit is ignored. -/
theorem test_input_mode : (after (small [103, 3, 99, 0] [-4])).mem.read 3 = -4 ∧
    (after (small [103, 3, 99, 0] [-4])).pc = 2 := by decide

/-- IN4 and IN5: the two input orders on a destination that does not resolve. -/
theorem test_input_orders :
    (after (small [3, 5, 99] [7])).run = .faulted ⟨0, some 3, .addressFault⟩ ∧
    (after (small [3, 5, 99] [7])).inCh.inq = [] ∧
    (after (smallAlt [3, 5, 99] [7])).run = .faulted ⟨0, some 3, .addressFault⟩ ∧
    (after (smallAlt [3, 5, 99] [7])).inCh.inq = [7] := by decide

/-- OU2: an Immediate operand. -/
theorem test_output_immediate : (after (small [104, -5, 99])).outCh.outq = [-5] := by decide

/-- OU3: an operand that does not resolve. -/
theorem test_output_fault : (after (small [4, 9, 99])).run = .faulted ⟨0, some 4, .addressFault⟩ ∧
    (after (small [4, 9, 99])).outCh.outq = [] := by decide

/-- JT4: under Lazy the target of a jump that is not taken is not resolved. -/
theorem test_jump_if_true_lazy : (after (small [5, 4, 9, 99, 0])).pc = 3 ∧
    (after (small [5, 4, 9, 99, 0])).run = .running := by decide

/-- JT5: under Eager it is. -/
theorem test_jump_if_true_eager : (after (smallAlt [5, 4, 9, 99, 0])).run = .faulted ⟨0, some 5, .addressFault⟩ := by
  decide

/-- JF1: taken. -/
theorem test_jump_if_false_taken : (after (small [1106, 0, 4, 0, 99])).pc = 4 := by decide

/-- JF2: not taken. -/
theorem test_jump_if_false_falls : (after (small [1106, 3, 7, 99])).pc = 3 := by decide

/-- CMP4: the comparison is signed. -/
theorem test_less_than_signed : (after (small [1107, -1, 0, 5, 99, 42])).mem.read 5 = 1 := by decide

/-- CMP3: equal operands are not less. -/
theorem test_less_than_equal : (after (small [1107, 5, 5, 5, 99, 42])).mem.read 5 = 0 := by decide

/-- CMP9: it compares its own opcode word with itself, and overwrites it. -/
theorem test_equals_itself : words (after (small [8, 0, 0, 0, 99])) = [1, 0, 0, 0, 99] := by decide

/-- CMP7. -/
theorem test_equals_unequal : (after (small [1108, 7, 8, 5, 99, 42])).mem.read 5 = 0 := by decide

/-- HL2: Halt's mode digits are ignored. -/
theorem test_halt : (after (small [1199])).run = .halted ∧ (after (small [1199])).pc = 0 := by decide

/-- UN3: a negative word. -/
theorem test_unknown : (after (small [-1])).run = .faulted ⟨0, some (-1), .decodeFault⟩ := by decide

/-- ST1: no word to fetch. -/
theorem test_fetch_empty : (after (small [])).run = .faulted ⟨0, none, .addressFault⟩ := by decide

/-- ST2: a jump out of range faults at the next fetch. -/
theorem test_fetch_out_of_range : (after (small [1105, 1, 50])).run = .running ∧
    (after (after (small [1105, 1, 50]))).run = .faulted ⟨50, none, .addressFault⟩ := by decide

/-- D18: the status port of a faulted machine. -/
theorem test_status_port : (after (small [0])).statusPort = ⟨2, 1, some 0, some 0, some true⟩ := by decide

/-! ## Witnesses: a concrete case meeting the hypotheses of each statement, one for each clause -/

/-- An access that answers a fault answers no value. -/
theorem no_value {r : Except FaultCat Int} {f : FaultCat} (h : r = .error f) : ∀ a, r ≠ .ok a := by
  intro a ha
  rw [h] at ha
  cases ha

/-- A machine fetches the instruction its word decodes to. -/
theorem fetches_of {s : State} {i : Instr} (w : Int) (hr : s.run = .running) (hf : s.fetch = .ok w)
    (hd : decodeInstr w = .ok i) : s.Fetches i := ⟨hr, w, hf, hd⟩

theorem witness_ModeDigitOneIsImmediate : modeOf 1 = .immediate ∧ modeOf 0 = .position ∧ modeOf 9 = .position ∧
    (0 : Int) ≤ 11101 ∧ (decode 11101).mode3 = .immediate ∧ (0 : Int) ≤ 21102 ∧ (decode 21102).mode3 = .position := by
  decide

theorem witness_OpcodeIsTheTwoLowestDigits : (0 : Int) ≤ 0 ∧ (decode 0).kind = .unknown ∧ (decode 199).kind = .halt ∧
    (decode 98).kind = .unknown ∧ (decode 9).kind = .unknown ∧ (decode 108).kind = .equals := by decide

theorem witness_NegativeWordIsUnknown : (-1 : Int) < 0 ∧ (small [-1]).run = .running ∧
    (small [-1]).fetch = .ok (-1) := ⟨by decide, rfl, rfl⟩

theorem witness_EncodeOfDecodeCanonical : decodeInstr 1002 = .ok (.mul .position .immediate .position) ∧
    (1002 : Int) < 100000 ∧ (∀ k ∈ [2, 3, 4], digit 1002 k ≤ 1) ∧ decodeInstr 103 = .ok (.input .immediate) ∧
    digit 103 2 ≤ 1 ∧ digit 103 3 = 0 ∧ digit 103 4 = 0 := by decide

theorem witness_HighDigitsAreIgnored : (0 : Int) ≤ 1000099 ∧ decode (1000099 % 100000) = decode 1000099 := by decide

theorem witness_AbsentParameterDigitsAreIgnored : (0 : Int) ≤ 1104 ∧ (1104 : Int) % 100 = 4 ∧
    (11103 : Int) % 100 = 3 ∧ (11105 : Int) % 100 = 5 ∧ (11106 : Int) % 100 = 6 ∧ (11199 : Int) % 100 = 99 := by decide

theorem witness_DisassembleOfAssemble :
    (AsmInstr.mul (.pos (.lit 4)) (.imm (.lit 3)) (.pos (.lit 4))).wellFormed 32 = true ∧
    (AsmInstr.mul (.pos (.lit 4)) (.imm (.lit 3)) (.pos (.lit 4))).words [] = some [1002, 4, 3, 4] := by decide

theorem witness_PseudoInstructionsActAsNamed :
    ((small [1105, 1, -1]).param 1 = .ok 1 ∧ (small [1105, 1, -1]).read 2 .immediate = .ok (-1)) ∧
    (32 ≤ (small [1001, 5, 0, 6, 99, 17, 0]).params.width ∧ Word.Fits 32 17 ∧
      (small [1001, 5, 0, 6, 99, 17, 0]).read 1 .position = .ok 17 ∧
      (small [1001, 5, 0, 6, 99, 17, 0]).param 2 = .ok 0 ∧
      (small [1001, 5, 0, 6, 99, 17, 0]).writeAddress 3 = .ok 6) ∧
    ((smallAlt [1105, 0, 0]).param 1 = .ok 0 ∧ (smallAlt [1105, 0, 0]).param 2 = .ok 0) :=
  ⟨⟨rfl, rfl⟩, ⟨by decide, by decide, rfl, rfl, rfl⟩, rfl, rfl⟩

theorem witness_MemoryAccessesAreRangeChecked : (small [99, 7]).InRange 0 ∧ (small [99, 7]).InRange 1 ∧
    ¬ (small [99, 7]).InRange 2 ∧ ¬ (small [99, 7]).InRange (-1) := by decide

theorem witness_ReadOperandsResolveByMode :
    (0 ≤ (small [1, 0, 3, 4]).pc ∧ (small [1, 0, 3, 4]).pc + (3 : Nat) < (small [1, 0, 3, 4]).mem.size) ∧
    (small [1, 0, 3, 4]).InRange 3 ∧ ¬ (small [1, 0, 3, 4]).InRange 4 ∧
    ((small [1, 0, 3]).mem.size : Int) ≤ (small [1, 0, 3]).pc + (3 : Nat) := by decide

theorem witness_OperandsResolveByRole : (small [3, 1]).writeAddress 1 = .ok 1 ∧
    (small [3, 1]).read 1 .immediate = .ok 1 ∧ (small [3, 1]).read 1 .position = .ok 1 ∧
    (∀ d, (small [3, 2]).writeAddress 1 ≠ .ok d) ∧ (∀ v, (small [3, 2]).read 1 .position ≠ .ok v) ∧
    (∀ v, (small [3]).read 1 .immediate ≠ .ok v) ∧ (∀ d, (small [3]).writeAddress 1 ≠ .ok d) :=
  ⟨rfl, rfl, rfl, no_value (f := .addressFault) rfl, no_value (f := .addressFault) rfl,
    no_value (f := .addressFault) rfl, no_value (f := .addressFault) rfl⟩

theorem witness_WrapIsTheOnlyCongruentWord : 1 ≤ 1 ∧ Word.Fits 1 (-1) ∧ Word.Fits 32 (-2147483648) ∧
    (-2147483648 : Int) % ((2 ^ 32 : Nat) : Int) = 2147483648 % ((2 ^ 32 : Nat) : Int) := by decide

theorem witness_AluConsequences : 32 ≤ 32 ∧ Word.Fits 32 (minWord 32) ∧ Word.Fits 32 (maxWord 32) ∧
    |(46340 * 46340 : Int)| < ((2 ^ (32 - 1) : Nat) : Int) ∧ |(-46340 * 46340 : Int)| < ((2 ^ (32 - 1) : Nat) : Int) := by
  decide

/-- The destination is the last index; the operands are in both modes. -/
theorem witness_AddStoresTheWrappedSum : (small [101, 2147483647, 1, 3]).read 1 .immediate = .ok 2147483647 ∧
    (small [101, 2147483647, 1, 3]).read 2 .position = .ok 2147483647 ∧
    (small [101, 2147483647, 1, 3]).writeAddress 3 = .ok 3 := ⟨rfl, rfl, rfl⟩

theorem witness_MultiplyStoresTheWrappedProduct : (small [1102, 65536, 65536, 0]).read 1 .immediate = .ok 65536 ∧
    (small [1102, 65536, 65536, 0]).read 2 .immediate = .ok 65536 ∧
    (small [1102, 65536, 65536, 0]).writeAddress 3 = .ok 0 := ⟨rfl, rfl, rfl⟩

theorem witness_LessThanStoresOneOrZero : (0 : Int) ≤ 11107 ∧ (11107 : Int) % 100 = 7 ∧
    (small [1107, -2147483648, 2147483647, 0]).read 1 .immediate = .ok (-2147483648) ∧
    (small [1107, -2147483648, 2147483647, 0]).read 2 .immediate = .ok 2147483647 ∧
    (small [1107, -2147483648, 2147483647, 0]).writeAddress 3 = .ok 0 ∧
    BadAccess (small [7, 4, 0, 0]) 1 .position ∧ BadAccess (small [1107, 0]) 2 .immediate ∧
    BadAccess (small [1107, 0, 0, -1]) 3 .position :=
  ⟨by decide, by decide, rfl, rfl, rfl, .inr ⟨rfl, by decide⟩, .inl (by decide), .inr ⟨rfl, by decide⟩⟩

theorem witness_EqualsStoresOneOrZero : (0 : Int) ≤ 8 ∧ (8 : Int) % 100 = 8 ∧
    (small [8, 0, 0, 0]).read 1 .position = .ok 8 ∧
    (small [8, 0, 0, 0]).read 2 .position = .ok 8 ∧ (small [8, 0, 0, 0]).writeAddress 3 = .ok 0 ∧
    BadAccess (small [8]) 1 .position ∧ BadAccess (small [8, 0, -1, 0]) 2 .position ∧
    BadAccess (small [1108, 0, 0]) 3 .position :=
  ⟨by decide, by decide, rfl, rfl, rfl, .inl (by decide), .inr ⟨rfl, by decide⟩, .inl (by decide)⟩

/-- AR11, a second operand past the end, and AR12: one for each alternative. -/
theorem witness_StoringInstructionsRaiseAddressFault : (∀ a, (small [1, 7, 0, 0, 99]).read 1 .position ≠ .ok a) ∧
    (∀ b, (small [1101, 1]).read 2 .immediate ≠ .ok b) ∧ (∀ d, (small [1101, 1, 1, -1, 99]).writeAddress 3 ≠ .ok d) :=
  ⟨no_value (f := .addressFault) rfl, no_value (f := .addressFault) rfl, no_value (f := .addressFault) rfl⟩

theorem witness_DestinationModeHasNoEffect : decodeInstr 31101 = .ok (.add .immediate .immediate .position) ∧
    decodeInstr 11101 = .ok (.add .immediate .immediate .immediate) ∧
    storesResult (.add .immediate .immediate .position) = true ∧ (31101 : Int) % 10000 = 11101 % 10000 ∧
    decodeInstr 103 = .ok (.input .immediate) ∧ decodeInstr 3 = .ok (.input .position) ∧
    isInput (.input .immediate) = true ∧ (103 : Int) % 100 = 3 % 100 ∧
    (small [11101, 5, 6, 0, 99]).param 1 = .ok 5 ∧ (small [11101, 5, 6, 0, 99]).param 2 = .ok 6 ∧
    (small [11101, 5, 6, 0, 99]).writeAddress 3 = .ok 0 := by
  refine ⟨by decide, by decide, by decide, by decide, by decide, by decide, by decide, by decide, rfl, rfl, rfl⟩

theorem witness_InputStoresTheNextValue : (small [3, 0, 99] [99, 5]).inCh.inq = 99 :: [5] ∧
    (small [3, 0, 99] [99, 5]).writeAddress 1 = .ok 0 ∧ (smallAlt [3, 0, 99] [99, 5]).writeAddress 1 = .ok 0 :=
  ⟨rfl, rfl, rfl⟩

/-- Under PullFirst the destination need not resolve. -/
theorem witness_InputStallsOnOpenEmptyInput : (small [3] [] false).inCh.inq = [] ∧
    (small [3] [] false).inCh.inClosed = false ∧ (small [3] [] false).params.inputOrder ≠ .resolveFirst ∧
    (smallAlt [3, 1] [] false).inCh.inClosed = false ∧ (∃ d, (smallAlt [3, 1] [] false).writeAddress 1 = .ok d) :=
  ⟨rfl, rfl, by decide, rfl, 1, rfl⟩

theorem witness_InputExhaustionIsAFault : (small [3] []).inCh.inq = [] ∧ (small [3] []).inCh.inClosed = true ∧
    (small [3] []).params.inputOrder ≠ .resolveFirst ∧ (smallAlt [3, 1] []).inCh.inClosed = true ∧
    (∃ d, (smallAlt [3, 1] []).writeAddress 1 = .ok d) := ⟨rfl, rfl, by decide, rfl, 1, rfl⟩

theorem witness_InputDestinationFault : (∀ d, (small [3, 5, 99] [7]).writeAddress 1 ≠ .ok d) ∧
    (small [3, 5, 99] [7]).params.inputOrder = .pullFirst ∧ (small [3, 5, 99] [7]).inCh.inq = 7 :: [] ∧
    (∀ d, (smallAlt [3, 5, 99] [7]).writeAddress 1 ≠ .ok d) ∧
    (smallAlt [3, 5, 99] [7]).params.inputOrder = .resolveFirst ∧
    (∀ d, (small [3, 5, 99] [] false).writeAddress 1 ≠ .ok d) ∧ (small [3, 5, 99] [] false).inCh.inq = [] ∧
    (∀ d, (small [3]).writeAddress 1 ≠ .ok d) ∧ (small [3]).inCh.inClosed = true :=
  ⟨no_value (f := .addressFault) rfl, rfl, rfl, no_value (f := .addressFault) rfl, rfl,
    no_value (f := .addressFault) rfl, rfl, no_value (f := .addressFault) rfl, rfl⟩

theorem witness_OutputPushesItsOperand : (0 : Int) ≤ 1104 ∧ (1104 : Int) % 100 = 4 ∧
    (small [4, 1]).read 1 .position = .ok 1 ∧ (small [104, -5]).read 1 .immediate = .ok (-5) ∧
    BadAccess (small [4, 2]) 1 .position ∧ BadAccess (small [104]) 1 .immediate :=
  ⟨by decide, by decide, rfl, rfl, .inr ⟨rfl, by decide⟩, .inl (by decide)⟩

theorem witness_JumpIfTrueSelectsThePc : (small [1105, -1, 50]).read 1 .immediate = .ok (-1) ∧
    (small [1105, -1, 50]).read 2 .immediate = .ok 50 ∧ (small [105, 0, 9]).read 1 .immediate = .ok 0 ∧
    (small [105, 0, 9]).params.jumpTargetRead = .lazy ∧ (smallAlt [105, 0, 2]).read 1 .immediate = .ok 0 ∧
    (∃ t, (smallAlt [105, 0, 2]).read 2 .position = .ok t) := ⟨rfl, rfl, rfl, rfl, rfl, 2, rfl⟩

theorem witness_JumpIfFalseSelectsThePc : (small [1106, 0, 50]).read 1 .immediate = .ok 0 ∧
    (small [1106, 0, 50]).read 2 .immediate = .ok 50 ∧ (small [106, -1, 9]).read 1 .immediate = .ok (-1) ∧
    (small [106, -1, 9]).params.jumpTargetRead = .lazy ∧ (smallAlt [106, -1, 2]).read 1 .immediate = .ok (-1) ∧
    (∃ t, (smallAlt [106, -1, 2]).read 2 .position = .ok t) := ⟨rfl, rfl, rfl, rfl, rfl, 2, rfl⟩

theorem witness_JumpsRaiseAddressFault : (∀ c, (small [5, 3, 0]).read 1 .position ≠ .ok c) ∧
    ((small [105, 1, 3]).read 1 .immediate = .ok 1 ∧ ∀ t, (small [105, 1, 3]).read 2 .position ≠ .ok t) ∧
    ((small [106, 0, 3]).read 1 .immediate = .ok 0 ∧ ∀ t, (small [106, 0, 3]).read 2 .position ≠ .ok t) ∧
    ((smallAlt [105, 0, 3]).read 1 .immediate = .ok 0 ∧ (smallAlt [105, 0, 3]).params.jumpTargetRead = .eager ∧
      ∀ t, (smallAlt [105, 0, 3]).read 2 .position ≠ .ok t) :=
  ⟨no_value (f := .addressFault) rfl, ⟨rfl, no_value (f := .addressFault) rfl⟩,
    ⟨rfl, no_value (f := .addressFault) rfl⟩, rfl, rfl, no_value (f := .addressFault) rfl⟩

/-- JT6. -/
theorem witness_JumpToSelfNeverEnds : (small [1105, 1, 0]).Fetches (.jumpIfTrue .immediate .immediate) ∧
    (small [1105, 1, 0]).read 1 .immediate = .ok 1 ∧ (1 : Int) ≠ 0 ∧
    (small [1105, 1, 0]).read 2 .immediate = .ok (small [1105, 1, 0]).pc :=
  ⟨fetches_of 1105 rfl rfl (by decide), rfl, by decide, rfl⟩

/-- ST2, and a negative target. -/
theorem witness_JumpOutOfRangeFaultsAtTheNextFetch :
    ((small [1105, 1, 50]).read 1 .immediate = .ok 1 ∧ (small [1105, 1, 50]).read 2 .immediate = .ok 50 ∧
      ¬ (small [1105, 1, 50]).InRange 50 ∧ (small [1105, 1, 50]).Fetches (.jumpIfTrue .immediate .immediate)) ∧
    (small [1106, 0, -1]).read 1 .immediate = .ok 0 ∧ (small [1106, 0, -1]).read 2 .immediate = .ok (-1) ∧
    ¬ (small [1106, 0, -1]).InRange (-1) ∧ (small [1106, 0, -1]).Fetches (.jumpIfFalse .immediate .immediate) :=
  ⟨⟨rfl, rfl, by decide, fetches_of 1105 rfl rfl (by decide)⟩, rfl, rfl, by decide, fetches_of 1106 rfl rfl (by decide)⟩

theorem witness_HaltStopsTheMachine : (small [99]).Fetches .halt := fetches_of 99 rfl rfl (by decide)

theorem witness_UnknownWordRaisesDecodeFault : (small [98]).run = .running ∧ (small [98]).fetch = .ok 98 ∧
    (decode 98).kind = .unknown ∧ (small [-1]).fetch = .ok (-1) ∧ (decode (-1)).kind = .unknown :=
  ⟨rfl, rfl, by decide, rfl, by decide⟩

theorem witness_FetchOutOfRangeRaisesAddressFault : (small []).run = .running ∧ ¬ (small []).InRange (small []).pc := by
  decide

theorem witness_FaultEntryRecordsTheDiagnostic : (small [3, 5, 99] [7]).params.inputOrder = .pullFirst ∧
    (small [3, 5, 99] [7]).inCh.inq = 7 :: [] ∧ (∀ d, (small [3, 5, 99] [7]).writeAddress 1 ≠ .ok d) :=
  ⟨rfl, rfl, no_value (f := .addressFault) rfl⟩

/-- IN4, and a fault that pulls nothing. -/
theorem witness_FaultsArePrecise :
    (∃ t d, (small [3, 5, 99] [7]).run = .running ∧ step (small [3, 5, 99] [7]) = .next t ∧ t.run = .faulted d) ∧
    ∃ t d, (small [0]).run = .running ∧ step (small [0]) = .next t ∧ t.run = .faulted d :=
  ⟨⟨_, ⟨0, some 3, .addressFault⟩, rfl, rfl, rfl⟩, _, ⟨0, some 0, .decodeFault⟩, rfl, rfl, rfl⟩

/-- One of each category, and an AddressFault with a word (AR12). -/
theorem witness_FaultCategoriesNameTheirCauses :
    (∃ t d, step (small [1101, 1, 1, -1, 99]) = .next t ∧ t.run = .faulted d ∧ d.faultCat = .addressFault ∧
      d.faultWord = some 1101) ∧
    (∃ t d, step (small [0]) = .next t ∧ t.run = .faulted d ∧ d.faultCat = .decodeFault) ∧
    (∃ t d, step (small [3, 3, 99, 0]) = .next t ∧ t.run = .faulted d ∧ d.faultCat = .inputExhausted) ∧
    ∃ t d, step (small []) = .next t ∧ t.run = .faulted d ∧ d.faultWord = none :=
  ⟨⟨_, ⟨0, some 1101, .addressFault⟩, rfl, rfl, rfl, rfl⟩, ⟨_, ⟨0, some 0, .decodeFault⟩, rfl, rfl, rfl⟩,
    ⟨_, ⟨0, some 3, .inputExhausted⟩, rfl, rfl, rfl⟩,
    _, ⟨0, none, .addressFault⟩, rfl, rfl, rfl⟩

theorem witness_StepRunsTheDecodedInstruction : (small [1106, 0, 4, 0, 99]).Fetches (.jumpIfFalse .immediate .immediate) :=
  fetches_of 1106 rfl rfl (by decide)

theorem witness_TerminalMachineNeverMoves : (after (small [99])).Terminal ∧ (after (small [0])).Terminal ∧
    ∃ t, (after (small [99] [] false)).drive [.step, .feed [5], .close] = some t := ⟨by decide, by decide, _, rfl⟩

/-- A completed store, a fault and a stall. -/
theorem witness_StepMakesAtMostOneOfEachEffect : (∃ t, step (small [8, 0, 0, 0, 99]) = .next t ∧ t.mem.read 0 ≠ 8) ∧
    (∃ t d, step (small [0]) = .next t ∧ t.run = .faulted d) ∧
    ∃ t, step (small [3, 1] [] false) = .next t ∧ t.run = .running ∧
      (small [3, 1] [] false).Fetches (.input .position) ∧ t.pc = (small [3, 1] [] false).pc :=
  ⟨⟨_, rfl, by decide⟩, ⟨_, ⟨0, some 0, .decodeFault⟩, rfl, rfl⟩,
    ⟨_, rfl, rfl, fetches_of 3 rfl rfl (by decide), rfl⟩⟩

/-- A machine the host constructs meets the invariant. -/
theorem small_wf : (small [1101, 2147483647, 1, 0] [7]).Wf where
  width := by decide
  canonical := by decide
  size := by decide
  memFits := by decide
  pcFits := by decide
  inFits := by decide
  outFits := by decide
  diag := by intro d h; cases h

theorem witness_StepKeepsTheInvariant : (small [1101, 2147483647, 1, 0] [7]).Wf ∧
    ∃ t, step (small [1101, 2147483647, 1, 0] [7]) = .next t := ⟨small_wf, _, rfl⟩

theorem witness_HostActsKeepTheInvariant : (small [1101, 2147483647, 1, 0] [7]).Wf ∧
    ∃ t, (small [1101, 2147483647, 1, 0] [7]).drive [.step, .close] = some t := ⟨small_wf, _, rfl⟩

theorem witness_SizeAndParametersAreFixed : ∃ t, (small [3, 1] [] false).drive [.step, .feed [5], .step, .close] = some t :=
  ⟨_, rfl⟩

theorem witness_OnlyStoringInstructionsWriteMemory : storesResult (.output .immediate) = false ∧
    isInput (.output .immediate) = false ∧ ∃ t, exec (.output .immediate) (small [104, -5]) = .next t :=
  ⟨rfl, rfl, _, rfl⟩

/-- A host that asks for a step and closes the input in turn. -/
def stepAndClose (n : Nat) : HostAct := if n % 2 = 0 then .step else .close

theorem stepAndClose_step (n : Nat) : stepAndClose (2 * n) = .step := by simp [stepAndClose]

theorem stepAndClose_close (n : Nat) : stepAndClose (2 * n + 1) = .close := by simp [stepAndClose, Nat.add_mod]

/-- The last four clauses are what `AlwaysHalts` asks of the host's acts. -/
theorem witness_HaltedExactlyByHalt : (small [99]).run = .running ∧
    (∃ t, step (small [99]) = .next t ∧ t.run = .halted) ∧ (∃ t, step (small [0]) = .next t ∧ t.run ≠ .halted) ∧
    (small [99]).Fetches .halt ∧ (small [99]).Allows stepAndClose ∧ KeepsDriving stepAndClose ∧
    (small [99]).FeedsStalls stepAndClose := by
  refine ⟨rfl, ⟨_, rfl, rfl⟩, ⟨_, rfl, by decide⟩, fetches_of 99 rfl rfl (by decide), ?_,
    fun n => ⟨2 * n, by omega, stepAndClose_step n⟩, fun n _ _ _ => ⟨2 * n + 1, by omega, .inl (stepAndClose_close n)⟩⟩
  refine State.allows_of_kept (P := fun t => t.Terminal ∨ t.run = .running ∧ t.fetch = .ok 99)
    (.inr ⟨rfl, rfl⟩) fun n t ht => ?_
  have hact : stepAndClose n = .step ∨ stepAndClose n = .close := by
    unfold stepAndClose
    split <;> simp
  rcases hact with ha | ha <;> rw [ha]
  · rcases ht with ht | ⟨hr, hf⟩
    · exact ⟨t, by simp only [State.act, step_terminal ht], .inl ht⟩
    · have hs : step t = .next (t.setRun .halted) := by
        simp only [step, hr, hf, State.attempt_ok]
        rfl
      exact ⟨t.setRun .halted, by simp only [State.act, hs], .inl (by simp [State.Terminal])⟩
  · exact ⟨_, rfl, ht⟩

theorem witness_ChannelsKeepTheirOrder : ∃ t, Sys2Proof.core.run 2 (small [3, 3, 99, 0] [7, 8]) = .next t := ⟨_, rfl⟩

theorem witness_OnlyInputDependsOnTheInputDevice : isInput (.add .immediate .immediate .position) = false ∧
    ∃ t, exec (.add .immediate .immediate .position) (small [1101, 2, 3, 0] [7]) = .next t := ⟨rfl, _, rfl⟩

theorem witness_OutputIsNeverRead : ∃ t, step (small [104, -5, 99]) = .next t ∧ t.outCh.outq = [-5] := ⟨_, rfl, rfl⟩

/-- For each jump: a target that resolves, a jump taken whose target does not, and a condition that does not. -/
theorem witness_TargetReadPoliciesAgree :
    PolicyFree (small [105, 0, 2]) (fun c => c ≠ 0) .immediate .position ∧
    PolicyFree (small [105, 1, 3]) (fun c => c ≠ 0) .immediate .position ∧
    PolicyFree (small [5, 3, 0]) (fun c => c ≠ 0) .position .position ∧
    PolicyFree (small [106, 1, 2]) (fun c => c = 0) .immediate .position ∧
    PolicyFree (small [106, 0, 3]) (fun c => c = 0) .immediate .position ∧
    PolicyFree (small [6, 3, 0]) (fun c => c = 0) .position .position ∧
    (∃ t, exec (.jumpIfTrue .immediate .position) (withTargetRead (small [105, 1, 3]) .eager) = .next t) ∧
    (∀ m1 m2, Instr.halt ≠ .jumpIfTrue m1 m2 ∧ Instr.halt ≠ .jumpIfFalse m1 m2) ∧
    ∃ t, exec .halt (withTargetRead (small [99]) .eager) = .next t :=
  ⟨.inl ⟨2, rfl⟩, .inr (.inl ⟨1, rfl, by decide⟩), .inr (.inr (no_value (f := .addressFault) rfl)), .inl ⟨2, rfl⟩,
    .inr (.inl ⟨0, rfl, rfl⟩), .inr (.inr (no_value (f := .addressFault) rfl)), ⟨_, rfl⟩,
    (fun _ _ => ⟨nofun, nofun⟩), _, rfl⟩

theorem witness_InputOrdersAgree : (∀ m1, Instr.input .position = .input m1 →
      ∃ d, (small [3, 1] []).writeAddress 1 = .ok d) ∧
    ∃ t, exec (.input .position) (withInputOrder (small [3, 1] []) .resolveFirst) = .next t :=
  ⟨fun _ _ => ⟨1, rfl⟩, _, rfl⟩

/-- AR9 for Add, E9 for Multiply, and one for each of LessThan, Equals and Input. -/
theorem witness_NextFetchSeesTheStore :
    ((small [1101, 0, 99, 4, 0]).Fetches (.add .immediate .immediate .position) ∧
      (small [1101, 0, 99, 4, 0]).read 1 .immediate = .ok 0 ∧ (small [1101, 0, 99, 4, 0]).read 2 .immediate = .ok 99 ∧
      (small [1101, 0, 99, 4, 0]).writeAddress 3 = .ok ((small [1101, 0, 99, 4, 0]).pc + 4)) ∧
    ((small [1102, 3, 33, 4, 33]).Fetches (.mul .immediate .immediate .position) ∧
      (small [1102, 3, 33, 4, 33]).writeAddress 3 = .ok ((small [1102, 3, 33, 4, 33]).pc + 4)) ∧
    ((small [1107, 3, 5, 4, 0]).Fetches (.lessThan .immediate .immediate .position) ∧
      (small [1107, 3, 5, 4, 0]).writeAddress 3 = .ok ((small [1107, 3, 5, 4, 0]).pc + 4)) ∧
    ((small [1108, 3, 5, 4, 0]).Fetches (.equals .immediate .immediate .position) ∧
      (small [1108, 3, 5, 4, 0]).writeAddress 3 = .ok ((small [1108, 3, 5, 4, 0]).pc + 4)) ∧
    (small [3, 2, 0] [99]).Fetches (.input .position) ∧ (small [3, 2, 0] [99]).inCh.inq = 99 :: [] ∧
    (small [3, 2, 0] [99]).writeAddress 1 = .ok ((small [3, 2, 0] [99]).pc + 2) :=
  ⟨⟨fetches_of 1101 rfl rfl (by decide), rfl, rfl, rfl⟩, ⟨fetches_of 1102 rfl rfl (by decide), rfl⟩,
    ⟨fetches_of 1107 rfl rfl (by decide), rfl⟩, ⟨fetches_of 1108 rfl rfl (by decide), rfl⟩,
    fetches_of 3 rfl rfl (by decide), rfl, rfl⟩

theorem witness_ConstructionSetsEveryPieceOfState :
    (∃ s, construct ⟨32, .lazy, .pullFirst⟩ [1, 0, 0, 2147483647] ⟨[-2147483648], true⟩ = some s) ∧
    ∃ s, construct ⟨32, .eager, .resolveFirst⟩ [] ⟨[], false⟩ = some s := ⟨⟨_, rfl⟩, _, rfl⟩

/-- The construction succeeds at the ends of the word range, and each check refuses. -/
theorem witness_ConstructionRefusesWhatDoesNotFit :
    (construct ⟨32, .lazy, .pullFirst⟩ [2147483647, -2147483648] ⟨[], true⟩).isSome = true ∧
    construct ⟨31, .lazy, .pullFirst⟩ [99] ⟨[], true⟩ = none ∧
    construct ⟨32, .lazy, .pullFirst⟩ [2147483648] ⟨[], true⟩ = none ∧
    construct ⟨32, .lazy, .pullFirst⟩ [99] ⟨[-2147483649], true⟩ = none := by decide

theorem witness_FeedingEndsAStall : (small [3, 3, 99, 0] [] false).Fetches (.input .position) ∧
    (small [3, 3, 99, 0] [] false).inCh = ⟨[], false⟩ ∧ (small [3, 3, 99, 0] [] false).writeAddress 1 = .ok 3 ∧
    Word.Fits (small [3, 3, 99, 0] [] false).params.width 7 :=
  ⟨fetches_of 3 rfl rfl (by decide), rfl, rfl, by decide⟩

theorem witness_ExhaustedInputStaysExhausted : (small [3, 3, 99, 0] []).inCh = ⟨[], true⟩ ∧
    ∃ t, (small [3, 3, 99, 0] []).drive [.close, .step, .step] = some t := ⟨rfl, _, rfl⟩

theorem witness_StatusPortShowsTheCodes : (small [99]).run = .running ∧ (after (small [99])).run = .halted ∧
    (after (small [0])).run = .faulted ⟨0, some 0, .decodeFault⟩ ∧
    (after (small [])).run = .faulted ⟨0, none, .addressFault⟩ ∧
    (after (small [3, 3, 99, 0])).run = .faulted ⟨0, some 3, .inputExhausted⟩ := by decide

theorem witness_InspectionGivesTheFinalState : (small [99]).run = .running ∧ (after (small [99, 1, 2])).Terminal ∧
    ∃ t u, (small [99, 1, 2]).runAt stepAndClose 1 = some t ∧ (small [99, 1, 2]).runAt stepAndClose 4 = some u ∧
      t.Terminal ∧ u.Terminal := ⟨rfl, by decide, _, _, rfl, rfl, by decide, by decide⟩

/-! ## Runs -/

/-- IN3: a run that stalls, is fed and then halts. -/
theorem test_run_fed_halts : (small [3, 3, 99, 0] [] false).Stalled ∧ (small [3, 3, 99, 0] [] false).EndsHalted :=
  ⟨⟨⟨.position, fetches_of 3 rfl rfl (by decide)⟩, rfl⟩, _, ⟨[.step, .feed [7], .step, .step], rfl⟩, rfl⟩

/-- The same machine is not safe: the host may close the input instead (R108). -/
theorem test_run_closed_faults : ¬ (small [3, 3, 99, 0] [] false).Safe :=
  fun h => h _ ⟨0, some 3, .inputExhausted⟩ ⟨[.step, .close, .step], rfl⟩ rfl

end Sys2Proof.Tests
end

section
/-! PROOFS. The accesses of spec/00_scope.md R14. -/

namespace Sys2Proof.Proofs.Scope

open Sys2Proof.Machine

/-- Outside `[0, N)` nothing is written; with `State.memWrite_of_inRange`, all that `MemWrite` can answer. -/
theorem memWrite_of_not_inRange {s : State} {a : Int} (v : Int) (h : ¬ s.InRange a) :
    s.memWrite a v = .error .addressFault := if_neg h

/-- A write in range changes the one word and nothing else. -/
theorem memWrite_frame {s : State} {a : Int} (v : Int) (h : s.InRange a) :
    ∃ t, s.memWrite a v = .ok t ∧ t.mem.read a.toNat = v ∧ (∀ x, x ≠ a.toNat → t.mem.read x = s.mem.read x) ∧
      t.mem.size = s.mem.size ∧ t.pc = s.pc ∧ t.run = s.run ∧ t.inCh = s.inCh ∧ t.outCh = s.outCh ∧
      t.params = s.params :=
  ⟨_, State.memWrite_of_inRange v h, Memory.read_write_same s.mem a.toNat v,
    fun _ hx => Memory.read_write_other s.mem v hx, Memory.write_size s.mem a.toNat v, rfl, rfl, rfl, rfl, rfl⟩

theorem attempt_memRead_of_not_inRange {s : State} {a : Int} (h : ¬ s.InRange a) (k : Int → Result) :
    s.attempt (s.memRead a) k = s.raise .addressFault := by
  rw [State.memRead_error_iff.2 ⟨h, rfl⟩, State.attempt_error]

theorem attempt_memWrite_of_not_inRange {s : State} {a : Int} (v : Int) (h : ¬ s.InRange a) (k : State → Result) :
    s.attempt (s.memWrite a v) k = s.raise .addressFault := by
  rw [memWrite_of_not_inRange v h, State.attempt_error]

/-- Settles O12: in range by the one-word frame of a write, out of range because `attempt` raises the access's fault. -/
theorem memoryAccessesAreRangeChecked : Obligations.MemoryAccessesAreRangeChecked := fun _ _ v =>
  ⟨Iff.rfl, fun h => ⟨State.memRead_ok_iff.2 ⟨h, rfl⟩, memWrite_frame v h⟩,
    fun h => ⟨attempt_memRead_of_not_inRange h, attempt_memWrite_of_not_inRange v h⟩⟩

end Sys2Proof.Proofs.Scope
end

section
/-! PROOFS. The encoding of spec/30_encoding.md: the mode digits and the opcode of a word, and the roles of parameters. -/

namespace Sys2Proof.Proofs.Encoding

open Sys2Proof.Machine

/-! ## The decoder on the words that are not negative (R54) -/

theorem decode_of_nonneg {w : Int} (hw : 0 ≤ w) :
    decode w = ⟨kindOf (w.toNat % 100), modeOf (digit w.toNat 2), modeOf (digit w.toNat 3), modeOf (digit w.toNat 4)⟩ :=
  if_neg hw.not_gt

/-! ## Modes (R57) -/

theorem modeOf_eq_immediate_iff {d : Nat} : modeOf d = .immediate ↔ d = 1 := by simp [modeOf]

theorem modeOf_of_ne_one {d : Nat} (h : d ≠ 1) : modeOf d = .position := if_neg h

theorem natCast_digit_toNat {w : Int} (hw : 0 ≤ w) (i : Nat) : (digit w.toNat i : Int) = w / 10 ^ i % 10 := by
  simp [digit, Int.toNat_of_nonneg hw]

theorem modeOf_digit_eq_immediate_iff {w : Int} (hw : 0 ≤ w) (i : Nat) :
    modeOf (digit w.toNat i) = .immediate ↔ w / 10 ^ i % 10 = 1 := by
  rw [modeOf_eq_immediate_iff, ← natCast_digit_toNat hw i, Nat.cast_eq_one]

/-- Settles O1: the modes of a word that is not negative are `modeOf` of its digits 2 to 4. -/
theorem modeDigitOneIsImmediate : Obligations.ModeDigitOneIsImmediate := by
  refine ⟨fun d => ⟨modeOf_eq_immediate_iff.2, modeOf_of_ne_one⟩, fun w hw => ?_, rfl⟩
  rw [decode_of_nonneg hw]
  exact ⟨modeOf_digit_eq_immediate_iff hw 2, modeOf_digit_eq_immediate_iff hw 3, modeOf_digit_eq_immediate_iff hw 4⟩

/-! ## Kinds (R56) -/

/-- The opcode value that names a kind; Unknown has none (R56). -/
def opcodeOf : Kind → Option Nat
  | .add => some 1
  | .multiply => some 2
  | .input => some 3
  | .output => some 4
  | .jumpIfTrue => some 5
  | .jumpIfFalse => some 6
  | .lessThan => some 7
  | .equals => some 8
  | .halt => some 99
  | .unknown => none

theorem kindOf_of_opcodeOf {k : Kind} {n : Nat} (h : opcodeOf k = some n) : kindOf n = k := by
  cases k <;> cases h <;> rfl

theorem opcodeOf_kindOf {n : Nat} (h : kindOf n ≠ .unknown) : opcodeOf (kindOf n) = some n := by
  unfold kindOf at h ⊢
  split at h
  case h_10 => exact absurd rfl h
  all_goals rfl

/-- No two opcode values name one kind, Unknown apart. -/
theorem kindOf_eq_iff {k : Kind} {n m : Nat} (h : opcodeOf k = some n) : kindOf m = k ↔ m = n := by
  refine ⟨?_, fun e => e ▸ kindOf_of_opcodeOf h⟩
  rintro rfl
  have known : kindOf m ≠ .unknown := fun e => by rw [e] at h; cases h
  exact Option.some.inj ((opcodeOf_kindOf known).symm.trans h)

theorem kindOf_eq_unknown_iff {n : Nat} : kindOf n = .unknown ↔ n = 0 ∨ 9 ≤ n ∧ n ≠ 99 := by
  unfold kindOf
  split
  case h_10 => simp only [imp_false, true_iff] at *; omega
  all_goals decide

theorem decode_kind_eq_iff {w : Int} (hw : 0 ≤ w) {k : Kind} (n : Nat) (h : opcodeOf k = some n) :
    (decode w).kind = k ↔ w % 100 = n := by
  rw [decode_of_nonneg hw, kindOf_eq_iff h]
  omega

theorem decode_kind_eq_unknown_iff {w : Int} (hw : 0 ≤ w) :
    (decode w).kind = .unknown ↔ w % 100 = 0 ∨ 9 ≤ w % 100 ∧ w % 100 ≤ 98 := by
  rw [decode_of_nonneg hw, kindOf_eq_unknown_iff]
  omega

/-- Settles O2: each known kind has one opcode value, and Unknown has the values left over. -/
theorem opcodeIsTheTwoLowestDigits : Obligations.OpcodeIsTheTwoLowestDigits := by
  refine ⟨fun w hw => ⟨by omega, ?_⟩, rfl⟩
  exact ⟨decode_kind_eq_iff hw 1 rfl, decode_kind_eq_iff hw 2 rfl, decode_kind_eq_iff hw 3 rfl,
    decode_kind_eq_iff hw 4 rfl, decode_kind_eq_iff hw 5 rfl, decode_kind_eq_iff hw 6 rfl, decode_kind_eq_iff hw 7 rfl,
    decode_kind_eq_iff hw 8 rfl, decode_kind_eq_iff hw 99 rfl, decode_kind_eq_unknown_iff hw⟩

/-! ## The roles of parameters (R61) -/

theorem read_immediate_eq_ok_iff {s : State} {k : Nat} {v : Int} :
    s.read k .immediate = .ok v ↔ s.InRange (s.pc + k) ∧ v = s.mem.read (s.pc + k).toNat := by
  rw [State.read_immediate, State.param_ok_iff, eq_comm (a := v)]

theorem read_position_eq_ok_iff {s : State} {k : Nat} {v : Int} :
    s.read k .position = .ok v ↔ s.InRange (s.pc + k) ∧ s.InRange (s.mem.read (s.pc + k).toNat) ∧
      v = s.mem.read (s.mem.read (s.pc + k).toNat).toNat := by
  simp only [State.read_position_ok_iff, State.param_ok_iff, State.memRead_ok_iff, and_assoc, exists_and_left,
    exists_eq_left', eq_comm (a := v)]

theorem writeAddress_eq_ok_iff {s : State} {k : Nat} {d : Int} :
    s.writeAddress k = .ok d ↔ s.InRange (s.pc + k) ∧ s.InRange d ∧ d = s.mem.read (s.pc + k).toNat := by
  rw [State.writeAddress_ok_iff, State.param_ok_iff, and_assoc, and_comm (b := s.InRange d), eq_comm (a := d)]

/-- An access that can fault with AddressFault only, and answers no value, answers AddressFault (R77). -/
theorem eq_addressFault_of_no_value {r : Except FaultCat Int} (hr : ∀ f, r = .error f → f = .addressFault)
    (h : ∀ v, r ≠ .ok v) : r = .error .addressFault := by
  rcases r with f | v
  · rw [hr f rfl]
  · exact absurd rfl (h v)

/-- Settles O14, by what the resolver answers in each role, and R77 for every other case. -/
theorem operandsResolveByRole : Obligations.OperandsResolveByRole := fun _ _ =>
  ⟨fun _ => read_immediate_eq_ok_iff, fun _ => read_position_eq_ok_iff, fun _ => writeAddress_eq_ok_iff,
    fun _ => eq_addressFault_of_no_value fun _ => State.read_error,
    eq_addressFault_of_no_value fun _ => State.writeAddress_error⟩

end Sys2Proof.Proofs.Encoding
end

section
/-! PROOFS. The execution step of spec/40_execution_step.md: the read operands, and the effects one step has. -/

namespace Sys2Proof.Proofs.ExecutionStep

open Sys2Proof.Machine

/-! ## One step's effects (R78) -/

/-- A step that answers a state either was asked of a terminal machine, or had one of the effects `Effect` lists. -/
theorem eq_self_or_effect_of_step {s t : State} (h : step s = .next t) :
    t = s ∨ s.run = .running ∧ Effect s t := by
  rcases step_cases s with ⟨-, e⟩ | ⟨hr, -, e⟩ | ⟨w, r, hr, -, -, e⟩ | ⟨w, i, hr, -, -, e⟩
  · cases e.symm.trans h
    exact .inl rfl
  · cases e.symm.trans h
    exact .inr ⟨hr, .raised _⟩
  · cases e.symm.trans h
    exact .inr ⟨hr, .raised _⟩
  · obtain ⟨u, hu, effect⟩ := exec_effect i s
    cases hu.symm.trans (e.symm.trans h)
    exact .inr ⟨hr, effect⟩

/-- From `s` to `t` an instruction completed and `pc` left it: the step neither raised nor stalled. -/
def PassesInstr (s t : State) : Prop := t.run = .running ∧ t.pc ≠ s.pc

theorem not_passesInstr_of_faulted {s t : State} {d : Diag} (h : t.run = .faulted d) : ¬ PassesInstr s t :=
  fun ⟨hr, _⟩ => nomatch hr.symm.trans h

/-- Memory is kept, or one word of it is written by an instruction that completes. -/
theorem effect_mem {s t : State} (hr : s.run = .running) (h : Effect s t) :
    t.mem = s.mem ∨ PassesInstr s t ∧ ∃ d v, t.mem = s.mem.write d v := by
  cases h with
  | stored d v => exact .inr ⟨⟨hr, by simp⟩, d.toNat, v, rfl⟩
  | pulledStored d v => exact .inr ⟨⟨hr, by simp⟩, d.toNat, v, rfl⟩
  | raised | pulledRaised | stalled | halted | pushed | jumped | passed => exact .inl rfl

/-- The output is kept, or one word is pushed by an instruction that completes. -/
theorem effect_outq {s t : State} (hr : s.run = .running) (h : Effect s t) :
    t.outCh.outq = s.outCh.outq ∨ PassesInstr s t ∧ ∃ v, t.outCh.outq = s.outCh.outq ++ [v] := by
  cases h with
  | pushed m1 v => exact .inr ⟨⟨hr, by simp⟩, v, rfl⟩
  | raised | pulledRaised | stalled | halted | stored | pulledStored | jumped | passed => exact .inl rfl

/-- The input is kept, or one word is pulled; under PullFirst the step may still raise (R88). -/
theorem effect_inq {s t : State} (h : Effect s t) :
    t.inCh.inq = s.inCh.inq ∨ ∃ v, s.inCh.inq = v :: t.inCh.inq := by
  cases h with
  | pulledRaised v rest hq => exact .inr ⟨v, hq⟩
  | pulledStored d v rest hq => exact .inr ⟨v, hq⟩
  | raised | stalled | halted | stored | pushed | jumped | passed => exact .inl rfl

theorem step_mem {s t : State} (h : step s = .next t) :
    t.mem = s.mem ∨ PassesInstr s t ∧ ∃ d v, t.mem = s.mem.write d v := by
  rcases eq_self_or_effect_of_step h with rfl | ⟨hr, effect⟩
  · exact .inl rfl
  · exact effect_mem hr effect

theorem step_outq {s t : State} (h : step s = .next t) :
    t.outCh.outq = s.outCh.outq ∨ PassesInstr s t ∧ ∃ v, t.outCh.outq = s.outCh.outq ++ [v] := by
  rcases eq_self_or_effect_of_step h with rfl | ⟨hr, effect⟩
  · exact .inl rfl
  · exact effect_outq hr effect

theorem step_inq {s t : State} (h : step s = .next t) :
    t.inCh.inq = s.inCh.inq ∨ ∃ v, s.inCh.inq = v :: t.inCh.inq := by
  rcases eq_self_or_effect_of_step h with rfl | ⟨-, effect⟩
  · exact .inl rfl
  · exact effect_inq effect

/-- An index that reads differently after a write is the index written. -/
theorem eq_of_read_write_ne {m : Memory} {d x : Nat} {v : Int} (h : (m.write d v).read x ≠ m.read x) : x = d :=
  not_imp_comm.1 (Memory.read_write_other m v) h

theorem step_writes_one_index {s t : State} (h : step s = .next t) {x y : Nat}
    (hx : t.mem.read x ≠ s.mem.read x) (hy : t.mem.read y ≠ s.mem.read y) : x = y := by
  rcases step_mem h with e | ⟨-, d, v, e⟩
  · exact absurd (by rw [e]) hx
  · rw [e] at hx hy
    rw [eq_of_read_write_ne hx, eq_of_read_write_ne hy]

theorem step_keeps_mem_and_outq {s t : State} (h : step s = .next t) (hp : ¬ PassesInstr s t) :
    t.mem = s.mem ∧ t.outCh.outq = s.outCh.outq :=
  ⟨(step_mem h).resolve_right fun e => hp e.1, (step_outq h).resolve_right fun e => hp e.1⟩

/-- Settles O42: every write and every push belongs to an instruction that completes and leaves its `pc`, which a step
that raises or stalls does not. -/
theorem stepMakesAtMostOneOfEachEffect : Obligations.StepMakesAtMostOneOfEachEffect := by
  intro s t h
  refine ⟨fun x y => step_writes_one_index h, step_inq h, (step_outq h).imp_right And.right, fun quiet => ?_⟩
  have hp : ¬ PassesInstr s t := by
    rcases quiet with ⟨d, hd⟩ | ⟨-, m1, -, hpc⟩
    · exact not_passesInstr_of_faulted hd
    · exact fun passes => passes.2 hpc
  obtain ⟨hmem, hout⟩ := step_keeps_mem_and_outq h hp
  exact ⟨fun x => by rw [hmem], hout⟩

/-! ## Read operands (R74, R75) -/

theorem read_position_of_param {s : State} {k : Nat} {p : Int} (h : s.param k = .ok p) :
    s.read k .position = s.memRead p := by
  simp [State.read, h]

/-- A parameter word that is not there faults the operand in both modes. -/
theorem read_of_param_error {s : State} {k : Nat} {f : FaultCat} (h : s.param k = .error f) (m : Mode) :
    s.read k m = .error f := by
  simp [State.read, h]

/-- Settles O13: the parameter word is there or not as `pc + k` is in memory, and the operand follows from it. -/
theorem readOperandsResolveByMode : Obligations.ReadOperandsResolveByMode := by
  intro s k hpc _ _
  constructor
  · intro hk
    have hp : s.param k = .ok (s.mem.read (s.pc + k).toNat) := State.param_ok_iff.2 ⟨⟨by omega, hk⟩, rfl⟩
    refine ⟨_, rfl, hp, (State.read_immediate s k).trans hp, fun h => ?_, fun h => ?_⟩
    · rw [read_position_of_param hp, State.memRead_ok_iff.2 ⟨h, rfl⟩]
    · rw [read_position_of_param hp, State.memRead_error_iff.2 ⟨h, rfl⟩]
  · intro hk
    have hp : s.param k = .error .addressFault := State.param_error_iff.2 ⟨fun ⟨_, h⟩ => by omega, rfl⟩
    exact ⟨hp, read_of_param_error hp⟩

end Sys2Proof.Proofs.ExecutionStep
end

section
/-! PROOFS. Input and output of spec/42_io.md: the encoding of Output, its push and its fault. -/

namespace Sys2Proof.Proofs.InputOutput

open Sys2Proof.Machine Sys2Proof.Claims Sys2Proof.Proofs.Encoding

/-! ## The operand (R75, R77, R98) -/

/-- An operand that resolves made no access out of range. -/
theorem not_badAccess_of_read {s : State} {k : Nat} {m : Mode} {v : Int} (h : s.read k m = .ok v) :
    ¬ BadAccess s k m := by
  cases m with
  | immediate =>
    obtain ⟨hparam, -⟩ := read_immediate_eq_ok_iff.1 h
    simp [BadAccess, hparam]
  | position =>
    obtain ⟨hparam, hword, -⟩ := read_position_eq_ok_iff.1 h
    simp [BadAccess, hparam, hword]

theorem read_of_badAccess {s : State} {k : Nat} {m : Mode} (h : BadAccess s k m) :
    s.read k m = .error .addressFault :=
  eq_addressFault_of_no_value (fun _ => State.read_error) fun _ hv => not_badAccess_of_read hv h

/-! ## Output (R89) -/

theorem decodeInstr_of_instr {w : Int} {i : Instr} (h : (decode w).instr? = some i) : decodeInstr w = .ok i := by
  simp [decodeInstr, h]

/-- A word of opcode 4 is Output, in the mode of its digit 2. -/
theorem decodeInstr_output {w : Int} (hw : 0 ≤ w) (hop : w % 100 = 4) :
    decodeInstr w = .ok (.output (modeOf (digit w.toNat 2))) := by
  have hkind : (decode w).kind = .output := (decode_kind_eq_iff hw 4 rfl).2 hop
  have hmode : (decode w).mode1 = modeOf (digit w.toNat 2) := by rw [decode_of_nonneg hw]
  exact decodeInstr_of_instr (by simp [Operator.instr?, hkind, hmode])

theorem exec_output_of_read {s : State} {m1 : Mode} {a : Int} (h : s.read 1 m1 = .ok a) :
    exec (.output m1) s = .next ((s.push a).setPc (s.pc + 2)) := by
  change execOutput m1 s = _
  rw [execOutput, h, State.attempt_ok, State.complete_seq, State.push_pc, Nat.cast_ofNat]

theorem exec_output_of_badAccess {s : State} {m1 : Mode} (h : BadAccess s 1 m1) :
    exec (.output m1) s = .next (faulted s .addressFault) := by
  change execOutput m1 s = _
  rw [execOutput, read_of_badAccess h, State.attempt_error, State.raise_eq, State.faultedState, faulted]

/-- Settles O27: an operand that resolves is pushed and nothing but `pc` changes beside; one that does not raises before
the push. -/
theorem outputPushesItsOperand : Obligations.OutputPushesItsOperand :=
  ⟨fun _ => decodeInstr_output, fun _ _ =>
    ⟨fun _ h => ⟨_, exec_output_of_read h, rfl, rfl, fun _ => rfl, rfl, rfl, rfl, rfl⟩, exec_output_of_badAccess⟩⟩

end Sys2Proof.Proofs.InputOutput
end

section
/-! PROOFS. The comparisons of spec/44_compare.md: their encoding, and what the body they share with Add and Multiply
stores and leaves unchanged. -/

namespace Sys2Proof.Proofs.Compare

open Sys2Proof.Machine Sys2Proof.Claims Sys2Proof.Proofs.Encoding Sys2Proof.Proofs.InputOutput

/-! ## The encoding (R54, R56) -/

theorem decode_of_opcode {w : Int} {k : Kind} {n : Nat} (hw : 0 ≤ w) (hop : w % 100 = n) (hk : opcodeOf k = some n) :
    decode w = ⟨k, modeOf (digit w.toNat 2), modeOf (digit w.toNat 3), modeOf (digit w.toNat 4)⟩ := by
  have hkind := (decode_kind_eq_iff hw n hk).2 hop
  rw [decode_of_nonneg hw] at hkind ⊢
  rw [← hkind]

theorem decodeInstr_lessThan {w : Int} (hw : 0 ≤ w) (hop : w % 100 = 7) : decodeInstr w =
    .ok (.lessThan (modeOf (digit w.toNat 2)) (modeOf (digit w.toNat 3)) (modeOf (digit w.toNat 4))) :=
  decodeInstr_of_instr (by rw [decode_of_opcode (k := .lessThan) hw hop rfl]; rfl)

theorem decodeInstr_equals {w : Int} (hw : 0 ≤ w) (hop : w % 100 = 8) : decodeInstr w =
    .ok (.equals (modeOf (digit w.toNat 2)) (modeOf (digit w.toNat 3)) (modeOf (digit w.toNat 4))) :=
  decodeInstr_of_instr (by rw [decode_of_opcode (k := .equals) hw hop rfl]; rfl)

/-! ## The F3RRD body (R60, R76, R98) -/

/-- A destination that resolves made no access out of range, whatever its mode digit (R61). -/
theorem not_badAccess_of_writeAddress {s : State} {k : Nat} {d : Int} (h : s.writeAddress k = .ok d) :
    ¬ BadAccess s k .position := by
  obtain ⟨hparam, hd, rfl⟩ := writeAddress_eq_ok_iff.1 h
  simp [BadAccess, hparam, hd]

/-- The frame of the F3RRD body: one word is written, `pc` passes the instruction, and nothing else changes. -/
theorem storeResult_stores {s : State} (op : Int → Int → Int) {m1 m2 : Mode} {a b d : Int}
    (h1 : s.read 1 m1 = .ok a) (h2 : s.read 2 m2 = .ok b) (h3 : s.writeAddress 3 = .ok d) :
    ∃ t, s.storeResult op m1 m2 = .next t ∧ Stored s t d (op a b) 4 ∧ t.inCh = s.inCh :=
  ⟨_, State.storeResult_ok h1 h2 h3, ⟨Memory.read_write_same s.mem d.toNat (op a b),
    fun _ hx => Memory.read_write_other s.mem _ hx, rfl, rfl, rfl, rfl, rfl⟩, rfl⟩

/-- The F3RRD body can only complete when all three of its parameters resolve, so a bad access faults it. -/
theorem storeResult_of_badAccess {s : State} (op : Int → Int → Int) {m1 m2 : Mode}
    (h : BadAccess s 1 m1 ∨ BadAccess s 2 m2 ∨ BadAccess s 3 .position) :
    s.storeResult op m1 m2 = .next (faulted s .addressFault) := by
  rcases s.storeResult_cases op m1 m2 with hfault | ⟨a, b, d, h1, h2, h3, -⟩
  · exact hfault
  · rcases h with bad | bad | bad
    · exact absurd bad (not_badAccess_of_read h1)
    · exact absurd bad (not_badAccess_of_read h2)
    · exact absurd bad (not_badAccess_of_writeAddress h3)

/-! ## LessThan and Equals (R93, R94) -/

theorem exec_lessThan (m1 m2 m3 : Mode) (s : State) : exec (.lessThan m1 m2 m3) s = s.storeResult aluLt m1 m2 := rfl

theorem exec_equals (m1 m2 m3 : Mode) (s : State) : exec (.equals m1 m2 m3) s = s.storeResult aluEq m1 m2 := rfl

/-- Settles O19: LessThan is the F3RRD body of the signed comparison, and that body takes no third mode. -/
theorem lessThanStoresOneOrZero : Obligations.LessThanStoresOneOrZero := by
  refine ⟨fun _ => decodeInstr_lessThan, fun m1 m2 m3 s => ?_⟩
  simp only [exec_lessThan]
  exact ⟨fun _ _ _ => storeResult_stores aluLt, storeResult_of_badAccess aluLt, fun _ => trivial⟩

/-- Settles O20: Equals is the F3RRD body of the comparison for equality, and that body takes no third mode. -/
theorem equalsStoresOneOrZero : Obligations.EqualsStoresOneOrZero := by
  refine ⟨fun _ => decodeInstr_equals, fun m1 m2 m3 s => ?_⟩
  simp only [exec_equals]
  exact ⟨fun _ _ _ => storeResult_stores aluEq, storeResult_of_badAccess aluEq, fun _ => trivial⟩

end Sys2Proof.Proofs.Compare
end

section
/-! PROOFS. Decoding and encoding of spec/30_encoding.md as two inverse functions: the word of an instruction, the
instruction of a word, and the digits a word is decoded from. -/

namespace Sys2Proof.Proofs.Decoder

open Sys2Proof.Machine Sys2Proof.Claims Sys2Proof.Proofs.Encoding Sys2Proof.Proofs.InputOutput Sys2Proof.Proofs.Compare

/-! ## Decoding the word of an instruction (R55, R68) -/

theorem modeOf_toDigit (m : Mode) : modeOf m.toDigit = m := by cases m <;> rfl

theorem toDigit_le_one (m : Mode) : m.toDigit ≤ 1 := by cases m <;> decide

theorem opcode_lt (i : Instr) : i.opcode < 100 := by cases i <;> simp [Instr.opcode]

theorem kindOf_opcode (i : Instr) : kindOf i.opcode = i.operator.kind := by cases i <;> rfl

theorem instr?_operator (i : Instr) : i.operator.instr? = some i := by cases i <;> rfl

/-- A word written as R68 writes it has its opcode and its three mode digits where R54 looks for them. -/
theorem digits_of_sum {op a b c : Nat} (hop : op < 100) (ha : a ≤ 1) (hb : b ≤ 1) (hc : c ≤ 1) :
    (op + 100 * a + 1000 * b + 10000 * c) % 100 = op ∧ digit (op + 100 * a + 1000 * b + 10000 * c) 2 = a ∧
    digit (op + 100 * a + 1000 * b + 10000 * c) 3 = b ∧ digit (op + 100 * a + 1000 * b + 10000 * c) 4 = c := by
  simp only [digit]
  omega

theorem encode_nonneg (i : Instr) : 0 ≤ encode i := Int.natCast_nonneg _

theorem encode_lt (i : Instr) : encode i < 100000 := by
  have hop := opcode_lt i
  have h1 := toDigit_le_one i.operator.mode1
  have h2 := toDigit_le_one i.operator.mode2
  have h3 := toDigit_le_one i.operator.mode3
  unfold encode
  omega

theorem decode_encode (i : Instr) : decode (encode i) = i.operator := by
  obtain ⟨hop, h1, h2, h3⟩ := digits_of_sum (opcode_lt i) (toDigit_le_one i.operator.mode1)
    (toDigit_le_one i.operator.mode2) (toDigit_le_one i.operator.mode3)
  rw [decode_of_nonneg (encode_nonneg i), encode, Int.toNat_natCast, hop, h1, h2, h3, kindOf_opcode, modeOf_toDigit,
    modeOf_toDigit, modeOf_toDigit]

theorem decodeInstr_encode (i : Instr) : decodeInstr (encode i) = .ok i :=
  decodeInstr_of_instr (by rw [decode_encode, instr?_operator])

/-- Settles O5: the four digits of the word give back the instruction's Operator, which selects the instruction. -/
theorem decodeOfEncode : Obligations.DecodeOfEncode := fun i => ⟨decodeInstr_encode i, encode_nonneg i, encode_lt i⟩

/-! ## What a word that decodes says of its instruction -/

theorem decodeInstr_eq_ok_iff {w : Int} {i : Instr} : decodeInstr w = .ok i ↔ (decode w).instr? = some i := by
  refine ⟨fun h => ?_, decodeInstr_of_instr⟩
  unfold decodeInstr at h
  split at h
  · next j hj => cases h; exact hj
  · split at h <;> cases h

theorem instr?_eq_none_iff {op : Operator} : op.instr? = none ↔ op.kind = .unknown := by
  unfold Operator.instr?
  split <;> simp_all

/-- A word is an instruction or is refused, as its kind is known or not (R65). -/
theorem decodeInstr_eq_error_iff {w : Int} : (∃ e, decodeInstr w = .error e) ↔ (decode w).kind = .unknown := by
  rw [← instr?_eq_none_iff]
  rcases h : (decode w).instr? with _ | i
  · simp only [decodeInstr, h, iff_true]
    split <;> exact ⟨_, rfl⟩
  · simp [decodeInstr_of_instr h]

theorem exists_decodeInstr_ok_iff {w : Int} : (∃ i, decodeInstr w = .ok i) ↔ (decode w).kind ≠ .unknown := by
  rw [ne_eq, ← decodeInstr_eq_error_iff]
  rcases decodeInstr w with e | i <;> simp

theorem decode_of_neg {w : Int} (hw : w < 0) : decode w = ⟨.unknown, .position, .position, .position⟩ := if_pos hw

theorem nonneg_of_decodeInstr {w : Int} {i : Instr} (h : decodeInstr w = .ok i) : 0 ≤ w := by
  by_contra hw
  exact exists_decodeInstr_ok_iff.1 ⟨i, h⟩ (by rw [decode_of_neg (not_le.1 hw)])

/-- Settles O7: a word decodes where its kind is known, and a word that is not negative has a known kind by its opcode
value. -/
theorem exactlyNineOpcodesDecode : Obligations.ExactlyNineOpcodesDecode := by
  intro w
  rw [exists_decodeInstr_ok_iff]
  rcases lt_or_ge w 0 with hw | hw
  · simp [decode_of_neg hw, hw.not_ge]
  · rw [ne_eq, decode_kind_eq_unknown_iff hw]
    omega

/-- Settles O3: a negative word is no instruction, so the step that fetches it raises DecodeFault. -/
theorem negativeWordIsUnknown : Obligations.NegativeWordIsUnknown := by
  refine fun w hw => ⟨decode_of_neg hw, fun s hr hf => ?_⟩
  obtain ⟨e, he⟩ := decodeInstr_eq_error_iff.2 (by rw [decode_of_neg hw])
  exact step_unknown hr hf he

/-- Settles O4: the listed words are closed terms, and the decoder computes on them. -/
theorem listedWordsDecode : Obligations.ListedWordsDecode := by
  unfold Obligations.ListedWordsDecode
  decide

/-! ## Words with canonical digits (R66, R68) -/

/-- The Operator of the instruction a decoded word selects has the word's kind, the word's modes for the parameters the
instruction has, and Position for the others. -/
theorem operator_of_instr? {op : Operator} {i : Instr} (h : op.instr? = some i) :
    i.operator.kind = op.kind ∧ i.operator.mode1 = (if 2 ≤ i.len then op.mode1 else .position) ∧
    i.operator.mode2 = (if 3 ≤ i.len then op.mode2 else .position) ∧
    i.operator.mode3 = (if 4 ≤ i.len then op.mode3 else .position) := by
  obtain ⟨kind, m1, m2, m3⟩ := op
  cases kind <;> cases h <;> exact ⟨rfl, rfl, rfl, rfl⟩

/-- A canonical mode digit is the digit of the mode it stands for. -/
theorem toDigit_of_canonical {k len d : Nat} (hpresent : k ≤ len → d ≤ 1) (habsent : len < k → d = 0) :
    (if k ≤ len then modeOf d else .position).toDigit = d := by
  split
  · next hk => rcases Nat.le_one_iff_eq_zero_or_eq_one.1 (hpresent hk) with rfl | rfl <;> rfl
  · next hk => exact (habsent (not_le.1 hk)).symm

theorem opcode_of_kindOf {i : Instr} {n : Nat} (h : i.operator.kind = kindOf n) : i.opcode = n := by
  have hi : opcodeOf i.operator.kind = some i.opcode := by cases i <;> rfl
  exact ((kindOf_eq_iff hi).1 h.symm).symm

/-- Settles O6: each term of the encoding is the word's own digit, and the digits make up the word. -/
theorem encodeOfDecodeCanonical : Obligations.EncodeOfDecodeCanonical := by
  intro w i h hlt hpresent habsent
  have hw := nonneg_of_decodeInstr h
  have hop := operator_of_instr? (decodeInstr_eq_ok_iff.1 h)
  rw [decode_of_nonneg hw] at hop
  obtain ⟨hkind, h1, h2, h3⟩ := hop
  rw [encode, opcode_of_kindOf hkind, h1, h2, h3,
    toDigit_of_canonical (fun hk => hpresent 2 le_rfl hk) (fun hk => habsent 2 hk (by decide)),
    toDigit_of_canonical (fun hk => hpresent 3 (by decide) hk) (fun hk => habsent 3 hk (by decide)),
    toDigit_of_canonical (fun hk => hpresent 4 (by decide) hk) (fun hk => habsent 4 hk (by decide))]
  simp only [digit]
  omega

/-! ## Digits that are ignored (R54, R63) -/

theorem digit_mod {k j : Nat} (n : Nat) (h : k < j) : digit (n % 10 ^ j) k = digit n k := by
  obtain ⟨r, rfl⟩ := Nat.exists_eq_add_of_lt h
  unfold digit
  rw [add_assoc, pow_add, Nat.mod_mul_right_div_self, Nat.mod_mod_of_dvd _ (dvd_pow_self 10 r.succ_ne_zero)]

theorem toNat_emod_pow {w : Int} (hw : 0 ≤ w) (j : Nat) : (w % 10 ^ j).toNat = w.toNat % 10 ^ j := by
  rw [Int.toNat_emod hw (by positivity)]
  rfl

theorem digit_emod {w : Int} (hw : 0 ≤ w) {k j : Nat} (h : k < j) :
    digit (w % 10 ^ j).toNat k = digit w.toNat k := by
  rw [toNat_emod_pow hw, digit_mod _ h]

theorem toNat_emod_mod_hundred {w : Int} (hw : 0 ≤ w) {j : Nat} (hj : 2 ≤ j) :
    (w % 10 ^ j).toNat % 100 = w.toNat % 100 := by
  have hdvd : 100 ∣ 10 ^ j := pow_dvd_pow 10 hj
  rw [toNat_emod_pow hw, Nat.mod_mod_of_dvd _ hdvd]

/-- Settles O8: the decoder looks at the digits below position 5 only. -/
theorem highDigitsAreIgnored : Obligations.HighDigitsAreIgnored := by
  intro w hw
  have h5 : 0 ≤ w % 10 ^ 5 := Int.emod_nonneg w (by positivity)
  rw [show (100000 : Int) = 10 ^ 5 by norm_num, decode_of_nonneg hw, decode_of_nonneg h5,
    toNat_emod_mod_hundred hw (by decide), digit_emod hw (by decide), digit_emod hw (by decide),
    digit_emod hw (by decide)]

/-- A word that has the opcode of a kind is the instruction of that kind in the modes of its digits. -/
theorem decodeInstr_of_opcode {w : Int} {k : Kind} {n : Nat} {i : Instr} (hw : 0 ≤ w) (hop : w % 100 = n)
    (hk : opcodeOf k = some n)
    (hi : Operator.instr? ⟨k, modeOf (digit w.toNat 2), modeOf (digit w.toNat 3), modeOf (digit w.toNat 4)⟩ = some i) :
    decodeInstr w = .ok i :=
  decodeInstr_of_instr (by rw [decode_of_opcode hw hop hk, hi])

theorem decodeInstr_input {w : Int} (hw : 0 ≤ w) (hop : w % 100 = 3) :
    decodeInstr w = .ok (.input (modeOf (digit w.toNat 2))) :=
  decodeInstr_of_opcode (k := .input) hw hop rfl rfl

theorem decodeInstr_jumpIfTrue {w : Int} (hw : 0 ≤ w) (hop : w % 100 = 5) :
    decodeInstr w = .ok (.jumpIfTrue (modeOf (digit w.toNat 2)) (modeOf (digit w.toNat 3))) :=
  decodeInstr_of_opcode (k := .jumpIfTrue) hw hop rfl rfl

theorem decodeInstr_jumpIfFalse {w : Int} (hw : 0 ≤ w) (hop : w % 100 = 6) :
    decodeInstr w = .ok (.jumpIfFalse (modeOf (digit w.toNat 2)) (modeOf (digit w.toNat 3))) :=
  decodeInstr_of_opcode (k := .jumpIfFalse) hw hop rfl rfl

theorem decodeInstr_halt {w : Int} (hw : 0 ≤ w) (hop : w % 100 = 99) : decodeInstr w = .ok .halt :=
  decodeInstr_of_opcode (k := .halt) hw hop rfl rfl

/-- Settles O9: the instruction of each opcode is made of the mode digits of its own parameters, which stand below the
digits cut off. -/
theorem absentParameterDigitsAreIgnored : Obligations.AbsentParameterDigitsAreIgnored := by
  intro w hw
  have h3 : 0 ≤ w % 10 ^ 3 := Int.emod_nonneg w (by positivity)
  have h4 : 0 ≤ w % 10 ^ 4 := Int.emod_nonneg w (by positivity)
  refine ⟨?_, ?_, decodeInstr_halt hw⟩
  · rw [show (1000 : Int) = 10 ^ 3 by norm_num]
    rintro (hop | hop)
    · rw [decodeInstr_input hw hop, decodeInstr_input h3 (by omega), digit_emod hw (by decide)]
    · rw [decodeInstr_output hw hop, decodeInstr_output h3 (by omega), digit_emod hw (by decide)]
  · rw [show (10000 : Int) = 10 ^ 4 by norm_num]
    rintro (hop | hop)
    · rw [decodeInstr_jumpIfTrue hw hop, decodeInstr_jumpIfTrue h4 (by omega), digit_emod hw (by decide),
        digit_emod hw (by decide)]
    · rw [decodeInstr_jumpIfFalse hw hop, decodeInstr_jumpIfFalse h4 (by omega), digit_emod hw (by decide),
        digit_emod hw (by decide)]

end Sys2Proof.Proofs.Decoder
end

section
/-! PROOFS. What every step and every act of the host keeps: the machine invariant, `N` and the parameters, the order of
the channels, and terminal states (spec/10_state.md, spec/60_exceptions.md R110, spec/70_reset_and_hazards.md). -/

namespace Sys2Proof.Proofs.Invariant

open Sys2Proof.Machine Sys2Proof.Claims Sys2Proof.Proofs.ExecutionStep

/-! ## Every step answers (R70, R71, R100) -/

/-- Settles O41: a step of a terminal machine, a fault and every instruction's body answer a next state. -/
theorem everyStepAnswersANextState : Obligations.EveryStepAnswersANextState := by
  intro s
  rcases step_cases s with ⟨-, h⟩ | ⟨-, -, h⟩ | ⟨w, e, -, -, -, h⟩ | ⟨w, i, -, -, -, h⟩
  · exact ⟨_, h⟩
  · exact ⟨_, h⟩
  · exact ⟨_, h⟩
  · obtain ⟨t, ht, -⟩ := exec_effect i s
    exact ⟨t, h.trans ht⟩

/-! ## The invariant (R6, R7, R11, R29) -/

/-- Every word a machine that meets the invariant reads is a word of its width. -/
theorem mem_read_fits {s : State} (h : s.Wf) (a : Nat) : Word.Fits s.params.width (s.mem.read a) := by
  rcases cellsRead_cases s.mem.cells a with hread | hmem
  · rw [Memory.read, hread]
    exact bit_fits h.width (.inl rfl)
  · exact h.memFits _ hmem

theorem read_fits {s : State} (h : s.Wf) {k : Nat} {m : Mode} {v : Int} (hv : s.read k m = .ok v) :
    Word.Fits s.params.width v := by
  cases m with
  | immediate =>
    rw [State.read_immediate, State.param_ok_iff] at hv
    exact hv.2 ▸ mem_read_fits h _
  | position =>
    obtain ⟨p, -, hp⟩ := State.read_position_ok_iff.1 hv
    exact (State.memRead_ok_iff.1 hp).2 ▸ mem_read_fits h _

/-- An index up to four words behind one inside the memory is a word: the bound on `N` leaves that room (R7, D12). -/
theorem fits_of_inRange {s : State} (h : s.Wf) {a b : Int} (ha : s.InRange a) (hab : a ≤ b) (hba : b ≤ a + 4) :
    Word.Fits s.params.width b := by
  obtain ⟨hlow, hhigh⟩ := ha
  have hsize := h.size
  have hhalf : 4 ≤ 2 ^ (s.params.width - 1) := le_trans (by norm_num) (half_ge h.width)
  simp only [Word.Fits, minWord, maxWord]
  unfold Params.maxSize at hsize
  omega

/-- A fault entry keeps the invariant: the diagnostic it records is the one the invariant asks for. -/
theorem wf_faultedState {s : State} (h : s.Wf) (f : FaultCat) : (s.faultedState f).Wf :=
  { h with diag := fun _ hd => RunState.faulted.inj hd ▸ ⟨rfl, rfl⟩ }

/-- The invariant asks nothing more of a machine that is not Faulted, so any other change of the run state keeps it. -/
theorem wf_setRun {s : State} (h : s.Wf) {r : RunState} (hr : ∀ d, r ≠ .faulted d) : (s.setRun r).Wf :=
  { h with diag := fun d hd => absurd hd (hr d) }

theorem wf_setIn {s : State} (h : s.Wf) {dev : InputDevice} (hdev : ∀ v ∈ dev.inq, Word.Fits s.params.width v) :
    (s.setIn dev).Wf :=
  { h with inFits := hdev }

theorem wf_pulled {s : State} (h : s.Wf) {v : Int} {rest : List Int} (hq : s.inCh.inq = v :: rest) (closed : Bool) :
    (s.setIn ⟨rest, closed⟩).Wf :=
  wf_setIn h fun u hu => h.inFits u (hq ▸ List.mem_cons_of_mem v hu)

theorem wf_push {s : State} (h : s.Wf) {v : Int} (hv : Word.Fits s.params.width v) : (s.push v).Wf :=
  { h with outFits := List.forall_mem_append.2 ⟨h.outFits, List.forall_mem_singleton.2 hv⟩ }

/-- A move of `pc` to a word. A diagnostic would name the old `pc`, so the machine must be Running. -/
theorem wf_setPc {s : State} (h : s.Wf) (hr : s.run = .running) {p : Int} (hp : Word.Fits s.params.width p) :
    (s.setPc p).Wf :=
  { h with pcFits := hp, diag := fun _ hd => nomatch hr.symm.trans hd }

/-- A store of a word inside the memory. A diagnostic might name the word overwritten, so the machine must be
Running. -/
theorem wf_store {s : State} (h : s.Wf) (hr : s.run = .running) {d v : Int} (hd : s.InRange d)
    (hv : Word.Fits s.params.width v) : (s.setMem (s.mem.write d.toNat v)).Wf :=
  { h with
    canonical := Memory.wf_write v h.canonical (by obtain ⟨h0, h1⟩ := hd; omega)
    memFits := fun c hc => by
      rcases mem_cellsWrite hc with ⟨rfl, -⟩ | hc
      · exact hv
      · exact h.memFits c hc
    diag := fun _ hd => nomatch hr.symm.trans hd }

/-- Each thing an instruction's body can do keeps the invariant. -/
theorem effect_wf {s t : State} (h : s.Wf) (hr : s.run = .running) (effect : Effect s t) : t.Wf := by
  cases effect with
  | raised f => exact wf_faultedState h f
  | pulledRaised v rest hq => exact wf_faultedState (wf_pulled h hq _) _
  | stalled => exact h
  | halted => exact wf_setRun h nofun
  | stored d v hd hv hp =>
    exact wf_setPc (wf_store h hr hd (hv h.width)) hr (fits_of_inRange h hp (by omega) (by omega))
  | pulledStored d v rest hq hd hp =>
    have hv : Word.Fits s.params.width v := h.inFits v (by simp [hq])
    exact wf_setPc (wf_store (wf_pulled h hq _) hr hd hv) hr (fits_of_inRange h hp (by omega) (by omega))
  | pushed m1 a ha =>
    obtain ⟨p, hp⟩ := State.param_of_read ha
    have hrange : s.InRange (s.pc + 1) := State.inRange_of_param hp
    exact wf_setPc (wf_push h (read_fits h ha)) hr (fits_of_inRange h hrange (by omega) (by omega))
  | jumped m2 p hp => exact wf_setPc h hr (read_fits h hp)
  | passed hp => exact wf_setPc h hr (fits_of_inRange h hp (by omega) (by omega))

/-- Settles O43: a step does nothing, or one of the things a body can do. -/
theorem stepKeepsTheInvariant : Obligations.StepKeepsTheInvariant := by
  intro s t h hstep
  rcases eq_self_or_effect_of_step hstep with rfl | ⟨hr, effect⟩
  · exact h
  · exact effect_wf h hr effect

theorem wordsWellFormed_iff {width : Nat} {ws : List Int} :
    wordsWellFormed width ws = true ↔ ∀ v ∈ ws, Word.Fits width v := by
  simp [wordsWellFormed]

theorem act_wf {s t : State} {a : HostAct} (h : s.Wf) (hact : s.act a = some t) : t.Wf := by
  rcases State.act_cases hact with ⟨-, hstep⟩ | ⟨ws, -, -, hws, rfl⟩ | ⟨-, rfl⟩
  · exact stepKeepsTheInvariant s t h hstep
  · exact wf_setIn h (List.forall_mem_append.2 ⟨h.inFits, wordsWellFormed_iff.1 hws⟩)
  · exact wf_setIn h h.inFits

/-- Settles O45, by induction on the acts: each of the three acts keeps the invariant. -/
theorem hostActsKeepTheInvariant : Obligations.HostActsKeepTheInvariant := fun s t acts h hdrive =>
  drive_induction (P := fun s t => s.Wf → t.Wf) (fun _ h => h)
    (fun _ _ _ _ hact ih h => ih (act_wf h hact)) acts s t hdrive h

/-- Settles O44: the empty memory and the empty channels leave only the width and `pc` to check. -/
theorem resetMeetsTheInvariant : Obligations.ResetMeetsTheInvariant where
  width := le_rfl
  canonical := Memory.wf_reset
  size := Nat.zero_le _
  memFits := nofun
  pcFits := bit_fits le_rfl (.inl rfl)
  inFits := nofun
  outFits := nofun
  diag := nofun

/-! ## What no act changes (R7, R10, R23) -/

theorem effect_size_params {s t : State} (effect : Effect s t) : t.mem.size = s.mem.size ∧ t.params = s.params := by
  cases effect <;> exact ⟨rfl, rfl⟩

theorem act_size_params {s t : State} {a : HostAct} (hact : s.act a = some t) :
    t.mem.size = s.mem.size ∧ t.params = s.params := by
  rcases State.act_cases hact with ⟨-, hstep⟩ | ⟨ws, -, -, -, rfl⟩ | ⟨-, rfl⟩
  · rcases eq_self_or_effect_of_step hstep with rfl | ⟨-, effect⟩
    · exact ⟨rfl, rfl⟩
    · exact effect_size_params effect
  · exact ⟨rfl, rfl⟩
  · exact ⟨rfl, rfl⟩

/-- Settles O46, by induction on the acts. -/
theorem sizeAndParametersAreFixed : Obligations.SizeAndParametersAreFixed := fun s t acts =>
  drive_induction (P := fun s t => t.mem.size = s.mem.size ∧ t.params = s.params) (fun _ => ⟨rfl, rfl⟩)
    (fun _ _ _ _ hact ih => ⟨ih.1.trans (act_size_params hact).1, ih.2.trans (act_size_params hact).2⟩) acts s t

/-! ## The channels (R46, R85, R109) -/

theorem effect_inClosed {s t : State} (effect : Effect s t) : t.inCh.inClosed = s.inCh.inClosed := by
  cases effect <;> rfl

theorem step_inClosed {s t : State} (hstep : step s = .next t) : t.inCh.inClosed = s.inCh.inClosed := by
  rcases eq_self_or_effect_of_step hstep with rfl | ⟨-, effect⟩
  · rfl
  · exact effect_inClosed effect

/-- `pulled` is what the machine takes from the input between `s` and `t`, and `pushed` what it adds to the output. -/
def Channels (s t : State) (pulled pushed : List Int) : Prop :=
  s.inCh.inq = pulled ++ t.inCh.inq ∧ t.outCh.outq = s.outCh.outq ++ pushed ∧ t.inCh.inClosed = s.inCh.inClosed

theorem Channels.refl (s : State) : Channels s s [] [] := ⟨rfl, (List.append_nil _).symm, rfl⟩

theorem Channels.trans {s t u : State} {pulled pulled' pushed pushed' : List Int} (h : Channels s t pulled pushed)
    (h' : Channels t u pulled' pushed') : Channels s u (pulled ++ pulled') (pushed ++ pushed') := by
  obtain ⟨hin, hout, hclosed⟩ := h
  obtain ⟨hin', hout', hclosed'⟩ := h'
  exact ⟨by rw [hin, hin', List.append_assoc], by rw [hout', hout, List.append_assoc], hclosed'.trans hclosed⟩

/-- Between `s` and `t` the machine pulls at most `n` words and pushes at most `n`. -/
def ChannelsWithin (n : Nat) (s t : State) : Prop :=
  ∃ pulled pushed, Channels s t pulled pushed ∧ pulled.length ≤ n ∧ pushed.length ≤ n

theorem ChannelsWithin.refl (s : State) : ChannelsWithin 0 s s := ⟨[], [], Channels.refl s, le_rfl, le_rfl⟩

theorem ChannelsWithin.trans {n m : Nat} {s t u : State} (h : ChannelsWithin n s t) (h' : ChannelsWithin m t u) :
    ChannelsWithin (m + n) s u := by
  obtain ⟨pulled, pushed, hc, hlen, hlen'⟩ := h
  obtain ⟨pulled₁, pushed₁, hc₁, hlen₁, hlen₁'⟩ := h'
  exact ⟨_, _, hc.trans hc₁, by rw [List.length_append]; omega, by rw [List.length_append]; omega⟩

/-- One step pulls at most one word and pushes at most one (R78). -/
theorem step_channels {s t : State} (hstep : step s = .next t) : ChannelsWithin 1 s t := by
  have hin : ∃ pulled : List Int, s.inCh.inq = pulled ++ t.inCh.inq ∧ pulled.length ≤ 1 := by
    rcases step_inq hstep with h | ⟨v, h⟩
    · exact ⟨[], h.symm, by simp⟩
    · exact ⟨[v], h, by simp⟩
  have hout : ∃ pushed : List Int, t.outCh.outq = s.outCh.outq ++ pushed ∧ pushed.length ≤ 1 := by
    rcases step_outq hstep with h | ⟨-, v, h⟩
    · exact ⟨[], by simp [h], by simp⟩
    · exact ⟨[v], h, by simp⟩
  obtain ⟨pulled, hpulled, hlen⟩ := hin
  obtain ⟨pushed, hpushed, hlen'⟩ := hout
  exact ⟨pulled, pushed, ⟨hpulled, hpushed, step_inClosed hstep⟩, hlen, hlen'⟩

/-- Settles O49, by induction on the steps. -/
theorem channelsKeepTheirOrder : Obligations.ChannelsKeepTheirOrder := by
  intro n s t hrun
  obtain ⟨pulled, pushed, ⟨hin, hout, hclosed⟩, hlen, hlen'⟩ := run_induction ChannelsWithin.refl
    (fun _ _ _ _ hstep => (step_channels hstep).trans) everyStepAnswersANextState n s t hrun
  exact ⟨pulled, pushed, hin, hout, hlen, hlen', hclosed⟩

/-! ## Terminal machines (R71, R115) -/

/-- A state that a step answers unchanged is left as it is by any number of steps. -/
theorem run_eq_self {s : State} (h : step s = .next s) (n : Nat) : Sys2Proof.core.run n s = .next s := by
  induction n with
  | zero => rfl
  | succ n ih => rw [run_succ n h, ih]

/-- An act leaves everything of a terminal machine but its input device. -/
theorem act_of_terminal {s t : State} {a : HostAct} (h : s.Terminal) (hact : s.act a = some t) :
    ∃ dev, t = s.setIn dev := by
  rcases State.act_cases hact with ⟨-, hstep⟩ | ⟨ws, -, -, -, rfl⟩ | ⟨-, rfl⟩
  · cases (step_terminal h).symm.trans hstep
    exact ⟨s.inCh, rfl⟩
  · exact ⟨_, rfl⟩
  · exact ⟨_, rfl⟩

theorem drive_of_terminal {s t : State} (acts : List HostAct) (h : s.Terminal) (hdrive : s.drive acts = some t) :
    t = s.setIn t.inCh := by
  refine drive_induction (P := fun s t => s.Terminal → t = s.setIn t.inCh) (fun _ _ => rfl) ?_ acts s t hdrive h
  intro s u t a hact ih h
  obtain ⟨dev, rfl⟩ := act_of_terminal h hact
  exact ih h

/-- Settles O40: a terminal machine has no step, and the two other acts are to its input. -/
theorem terminalMachineNeverMoves : Obligations.TerminalMachineNeverMoves := fun _ h =>
  ⟨step_terminal h, run_eq_self (step_terminal h), fun acts _ => drive_of_terminal acts h⟩

end Sys2Proof.Proofs.Invariant
end

section
/-! PROOFS. The ALU of spec/40_execution_step.md R79 and R80: `wrap` picks one word of each congruence class modulo
`2^W`, and the consequences follow from that. -/

namespace Sys2Proof.Proofs.Alu

open Sys2Proof.Machine

/-! ## `wrap` (R11) -/

/-- Congruent values wrap to the same word. -/
theorem wrap_congr {width : Nat} {u v : Int} (h : u ≡ v [ZMOD ((2 ^ width : Nat) : Int)]) :
    wrap width u = wrap width v := by
  unfold wrap
  rw [h.add_right]

theorem wrap_modEq (width : Nat) (v : Int) : wrap width v ≡ v [ZMOD ((2 ^ width : Nat) : Int)] := wrap_emod width v

theorem eq_wrap_of_modEq {width : Nat} (hw : 1 ≤ width) {u v : Int} (hu : Word.Fits width u)
    (h : u ≡ v [ZMOD ((2 ^ width : Nat) : Int)]) : u = wrap width v :=
  (wrap_of_fits hw hu).symm.trans (wrap_congr h)

/-- Settles O15: a word is its own wrapped value, and congruent values wrap alike. -/
theorem wrapIsTheOnlyCongruentWord : Obligations.WrapIsTheOnlyCongruentWord := fun width v hw =>
  ⟨wrap_fits hw v, wrap_emod width v, fun _ hu h => eq_wrap_of_modEq hw hu h⟩

/-! ## Add and multiply (R79, R80) -/

theorem aluAdd_comm (width : Nat) (a b : Int) : aluAdd width a b = aluAdd width b a := by
  rw [aluAdd, aluAdd, add_comm]

theorem aluMul_comm (width : Nat) (a b : Int) : aluMul width a b = aluMul width b a := by
  rw [aluMul, aluMul, mul_comm]

theorem aluAdd_assoc (width : Nat) (a b c : Int) :
    aluAdd width (aluAdd width a b) c = aluAdd width a (aluAdd width b c) := by
  refine wrap_congr (((wrap_modEq width (a + b)).add_right c).trans ?_)
  rw [add_assoc]
  exact ((wrap_modEq width (b + c)).add_left a).symm

theorem aluMul_assoc (width : Nat) (a b c : Int) :
    aluMul width (aluMul width a b) c = aluMul width a (aluMul width b c) := by
  refine wrap_congr (((wrap_modEq width (a * b)).mul_right c).trans ?_)
  rw [mul_assoc]
  exact ((wrap_modEq width (b * c)).mul_left a).symm

theorem minWord_fits (width : Nat) : Word.Fits width (minWord width) := by
  have := half_pos width
  simp only [Word.Fits, minWord, maxWord]
  omega

theorem maxWord_fits (width : Nat) : Word.Fits width (maxWord width) := by
  have := half_pos width
  simp only [Word.Fits, minWord, maxWord]
  omega

/-- The value one above the greatest word is congruent to the least: the two are `2^W` apart. -/
theorem minWord_modEq_maxWord_add_one {width : Nat} (hw : 1 ≤ width) :
    minWord width ≡ maxWord width + 1 [ZMOD ((2 ^ width : Nat) : Int)] := by
  refine Int.modEq_iff_dvd.2 (dvd_of_eq ?_)
  rw [two_pow_width hw, minWord, maxWord]
  ring

theorem aluAdd_maxWord_one {width : Nat} (hw : 1 ≤ width) : aluAdd width (maxWord width) 1 = minWord width :=
  (eq_wrap_of_modEq hw (minWord_fits width) (minWord_modEq_maxWord_add_one hw)).symm

theorem aluAdd_minWord_neg_one {width : Nat} (hw : 1 ≤ width) : aluAdd width (minWord width) (-1) = maxWord width := by
  refine (eq_wrap_of_modEq hw (maxWord_fits width) ?_).symm
  simpa using ((minWord_modEq_maxWord_add_one hw).add_right (-1)).symm

theorem aluMul_minWord_neg_one {width : Nat} (hw : 1 ≤ width) : aluMul width (minWord width) (-1) = minWord width := by
  have h : minWord width * -1 = maxWord width + 1 := by simp [minWord, maxWord]
  rw [aluMul, h]
  exact aluAdd_maxWord_one hw

theorem aluAdd_zero {width : Nat} (hw : 1 ≤ width) {x : Int} (hx : Word.Fits width x) : aluAdd width x 0 = x := by
  rw [aluAdd, add_zero, wrap_of_fits hw hx]

theorem aluMul_one {width : Nat} (hw : 1 ≤ width) {x : Int} (hx : Word.Fits width x) : aluMul width x 1 = x := by
  rw [aluMul, mul_one, wrap_of_fits hw hx]

theorem aluMul_zero {width : Nat} (hw : 32 ≤ width) (x : Int) : aluMul width x 0 = 0 := by
  rw [aluMul, mul_zero, wrap_of_fits (by omega) (bit_fits hw (.inl rfl))]

/-- A product that is smaller than `2^(W-1)` in magnitude is a word, so it is not wrapped and keeps its sign. -/
theorem sign_aluMul {width : Nat} (hw : 1 ≤ width) {a b : Int} (h : |a * b| < ((2 ^ (width - 1) : Nat) : Int)) :
    (aluMul width a b).sign = a.sign * b.sign := by
  have hfits : Word.Fits width (a * b) := by
    obtain ⟨hlow, hhigh⟩ := abs_lt.1 h
    exact ⟨hlow.le, Int.le_sub_one_of_lt hhigh⟩
  rw [aluMul, wrap_of_fits hw hfits, Int.sign_mul]

/-- Settles O16, clause by clause. -/
theorem aluConsequences : Obligations.AluConsequences := by
  intro width hw
  have hw1 : 1 ≤ width := by omega
  exact ⟨fun a b => ⟨aluAdd_comm width a b, aluMul_comm width a b⟩,
    fun a b c => ⟨aluAdd_assoc width a b c, aluMul_assoc width a b c⟩,
    fun _ _ => ⟨wrap_fits hw1 _, wrap_fits hw1 _⟩,
    fun _ hx => ⟨aluAdd_zero hw1 hx, aluMul_one hw1 hx⟩,
    aluAdd_maxWord_one hw1, aluAdd_minWord_neg_one hw1, aluMul_minWord_neg_one hw1, aluMul_zero hw,
    fun _ _ => sign_aluMul hw1, fun a b => ⟨aluLt_eq a b, aluEq_eq a b⟩,
    fun x => ⟨by simp [aluLt], by simp [aluEq]⟩, by decide⟩

end Sys2Proof.Proofs.Alu
end

section
/-! PROOFS. The step's own cases: the instruction fetched, a word that is none, no word, and the fault entry
(spec/40_execution_step.md R70 to R72, spec/60_exceptions.md R100). -/

namespace Sys2Proof.Proofs.Step

open Sys2Proof.Machine Sys2Proof.Claims Sys2Proof.Proofs.Decoder

theorem step_of_fetches {s : State} {i : Instr} (h : s.Fetches i) : step s = exec i s := by
  obtain ⟨hr, w, hf, hd⟩ := h
  simp [step, hr, hf, hd]

/-- Settles O39: the fetch and the decoder answer, and the step adds nothing to the body. -/
theorem stepRunsTheDecodedInstruction : Obligations.StepRunsTheDecodedInstruction := fun _ _ => step_of_fetches

/-- Settles O33: Halt reads nothing and sets `run`, at every state. -/
theorem haltStopsTheMachine : Obligations.HaltStopsTheMachine := fun s =>
  ⟨s.setRun .halted, rfl, rfl, rfl, rfl, fun _ => rfl, rfl, rfl, rfl, step_of_fetches⟩

/-- Settles O34: a word of kind Unknown is no instruction, and the diagnostic's word is the word fetched. -/
theorem unknownWordRaisesDecodeFault : Obligations.UnknownWordRaisesDecodeFault := by
  intro s w hr hf hk
  obtain ⟨e, he⟩ := decodeInstr_eq_error_iff.2 hk
  refine ⟨_, step_unknown hr hf he, ?_⟩
  rw [State.faultedState, State.word?_of_fetch hf]

theorem word?_of_not_inRange {s : State} {a : Int} (h : ¬ s.InRange a) : s.word? a = none := if_neg h

theorem step_of_not_inRange {s : State} (hr : s.run = .running) (h : ¬ s.InRange s.pc) :
    step s = .next (s.setRun (.faulted ⟨s.pc, none, .addressFault⟩)) := by
  rw [step_fetch_error hr (State.memRead_error_iff.2 ⟨h, rfl⟩), State.faultedState, word?_of_not_inRange h]

/-- Settles O35: the fetch faults, and no word exists for the diagnostic. -/
theorem fetchOutOfRangeRaisesAddressFault : Obligations.FetchOutOfRangeRaisesAddressFault :=
  fun _ => step_of_not_inRange

theorem faultedState_terminal (s : State) (f : FaultCat) : (s.faultedState f).Terminal := nofun

end Sys2Proof.Proofs.Step
end

section
/-! PROOFS. The storing instructions of spec/41_arithmetic.md and spec/44_compare.md: the results of Add and Multiply,
the fault all four raise, and the destination mode that has no effect (R62). -/

namespace Sys2Proof.Proofs.Storing

open Sys2Proof.Machine Sys2Proof.Claims Sys2Proof.Proofs.Encoding Sys2Proof.Proofs.Compare Sys2Proof.Proofs.Decoder

/-! ## Add and Multiply (R83, R84) -/

theorem exec_add (m1 m2 m3 : Mode) (s : State) :
    exec (.add m1 m2 m3) s = s.storeResult (aluAdd s.params.width) m1 m2 := rfl

theorem exec_mul (m1 m2 m3 : Mode) (s : State) :
    exec (.mul m1 m2 m3) s = s.storeResult (aluMul s.params.width) m1 m2 := rfl

/-- Settles O17: Add is the F3RRD body of the wrapped sum. -/
theorem addStoresTheWrappedSum : Obligations.AddStoresTheWrappedSum := fun m1 m2 m3 s _ _ _ h1 h2 h3 =>
  exec_add m1 m2 m3 s ▸ storeResult_stores (aluAdd s.params.width) h1 h2 h3

/-- Settles O18: Multiply is the F3RRD body of the wrapped product. -/
theorem multiplyStoresTheWrappedProduct : Obligations.MultiplyStoresTheWrappedProduct :=
  fun m1 m2 m3 s _ _ _ h1 h2 h3 => exec_mul m1 m2 m3 s ▸ storeResult_stores (aluMul s.params.width) h1 h2 h3

/-! ## The fault (R77, R98) -/

/-- The F3RRD body stores only where its three parameters resolve. -/
theorem storeResult_of_unresolved {s : State} {m1 m2 : Mode} (op : Int → Int → Int)
    (h : (∀ a, s.read 1 m1 ≠ .ok a) ∨ (∀ b, s.read 2 m2 ≠ .ok b) ∨ ∀ d, s.writeAddress 3 ≠ .ok d) :
    s.storeResult op m1 m2 = .next (faulted s .addressFault) := by
  rcases s.storeResult_cases op m1 m2 with hfault | ⟨a, b, d, h1, h2, h3, -⟩
  · exact hfault
  · rcases h with h | h | h
    · exact absurd h1 (h a)
    · exact absurd h2 (h b)
    · exact absurd h3 (h d)

/-- Settles O21: the four share the F3RRD body. -/
theorem storingInstructionsRaiseAddressFault : Obligations.StoringInstructionsRaiseAddressFault := fun _ _ _ _ h =>
  ⟨storeResult_of_unresolved _ h, storeResult_of_unresolved _ h, storeResult_of_unresolved _ h,
    storeResult_of_unresolved _ h⟩

/-! ## The destination's mode (R62) -/

/-- The result a kind of format F3RRD stores; of the other kinds it says nothing. -/
def resultOf (width : Nat) : Kind → Int → Int → Int
  | .add => aluAdd width
  | .multiply => aluMul width
  | .lessThan => aluLt
  | .equals => aluEq
  | .input | .output | .jumpIfTrue | .jumpIfFalse | .halt | .unknown => fun _ _ => 0

/-- A storing instruction is its kind and its two read modes: its third mode is not used. -/
theorem exec_of_storesResult {i : Instr} (h : storesResult i = true) (s : State) :
    exec i s = s.storeResult (resultOf s.params.width i.operator.kind) i.operator.mode1 i.operator.mode2 := by
  cases i <;> cases h <;> rfl

/-- Input does not use its mode. -/
theorem exec_of_isInput {i : Instr} (h : isInput i = true) (s : State) : exec i s = execInput .position s := by
  cases i <;> cases h; rfl

theorem storesResult_eq (i : Instr) : storesResult i = decide (i.operator.kind.format = .f3rrd) := by cases i <;> rfl

theorem isInput_eq (i : Instr) : isInput i = decide (i.operator.kind = .input) := by cases i <;> rfl

theorem digit_eq_of_emod_eq {w w' : Int} (hw : 0 ≤ w) (hw' : 0 ≤ w') {j k : Nat} (h : w % 10 ^ j = w' % 10 ^ j)
    (hk : k < j) : digit w.toNat k = digit w'.toNat k := by
  rw [← digit_emod hw hk, h, digit_emod hw' hk]

section
variable {w w' : Int} {i i' : Instr} (h : decodeInstr w = .ok i) (h' : decodeInstr w' = .ok i')
include h h'

/-- The kind of an instruction is in the two lowest digits of its word. -/
theorem kind_eq_of_emod_eq (e : w % 100 = w' % 100) : i.operator.kind = i'.operator.kind := by
  have hw := nonneg_of_decodeInstr h
  have hw' := nonneg_of_decodeInstr h'
  rw [(operator_of_instr? (decodeInstr_eq_ok_iff.1 h)).1, (operator_of_instr? (decodeInstr_eq_ok_iff.1 h')).1,
    decode_of_nonneg hw, decode_of_nonneg hw', show w.toNat % 100 = w'.toNat % 100 by omega]

/-- The kind and the first two modes of an instruction are in the four lowest digits of its word. -/
theorem kind_modes_eq_of_emod_eq (e : w % 10 ^ 4 = w' % 10 ^ 4) : i.operator.kind = i'.operator.kind ∧
    i.operator.mode1 = i'.operator.mode1 ∧ i.operator.mode2 = i'.operator.mode2 := by
  have hw := nonneg_of_decodeInstr h
  have hw' := nonneg_of_decodeInstr h'
  have hk : i.operator.kind = i'.operator.kind := kind_eq_of_emod_eq h h' (by omega)
  have hlen : i.len = i'.len := congrArg Kind.len hk
  obtain ⟨-, h1, h2, -⟩ := operator_of_instr? (decodeInstr_eq_ok_iff.1 h)
  obtain ⟨-, h1', h2', -⟩ := operator_of_instr? (decodeInstr_eq_ok_iff.1 h')
  rw [h1, h2, h1', h2', hlen, decode_of_nonneg hw, decode_of_nonneg hw',
    digit_eq_of_emod_eq hw hw' e (by decide : 2 < 4), digit_eq_of_emod_eq hw hw' e (by decide : 3 < 4)]
  exact ⟨hk, rfl, rfl⟩

theorem exec_eq_of_storesResult (hi : storesResult i = true) (e : w % 10 ^ 4 = w' % 10 ^ 4) (s : State) :
    exec i s = exec i' s := by
  obtain ⟨hk, h1, h2⟩ := kind_modes_eq_of_emod_eq h h' e
  have hi' : storesResult i' = true := by rw [storesResult_eq, ← hk, ← storesResult_eq, hi]
  rw [exec_of_storesResult hi, exec_of_storesResult hi', hk, h1, h2]

theorem exec_eq_of_isInput (hi : isInput i = true) (e : w % 100 = w' % 100) (s : State) : exec i s = exec i' s := by
  have hk := kind_eq_of_emod_eq h h' e
  have hi' : isInput i' = true := by rw [isInput_eq, ← hk, ← isInput_eq, hi]
  rw [exec_of_isInput hi, exec_of_isInput hi']

end

/-- Settles O22: the digits left equal give the kind and the read modes, and no body uses more. -/
theorem destinationModeHasNoEffect : Obligations.DestinationModeHasNoEffect := by
  refine ⟨fun w w' i i' s h h' same => ?_, by decide, by decide, fun s a b d h1 h2 h3 => ?_⟩
  · rcases same with ⟨hi, e⟩ | ⟨hi, e⟩
    · exact exec_eq_of_storesResult h h' hi (by rwa [show (10000 : Int) = 10 ^ 4 by norm_num] at e) s
    · exact exec_eq_of_isInput h h' hi e s
  · rw [← State.read_immediate] at h1 h2
    obtain ⟨t, ht, hstored⟩ := storeResult_stores (aluAdd s.params.width) h1 h2 h3
    exact ⟨t, ht, ht, hstored⟩

end Sys2Proof.Proofs.Storing
end

section
/-! PROOFS. Input of spec/42_io.md R87 and R88: what it does, for each answer of `Pull` and of the resolver, in both
orders of `INPUT_ORDER`. -/

namespace Sys2Proof.Proofs.Input

open Sys2Proof.Machine Sys2Proof.Claims Sys2Proof.Proofs.Encoding Sys2Proof.Proofs.Step

/-! ## The five outcomes -/

theorem exec_input_of_value {s : State} {v d : Int} {rest : List Int} (m1 : Mode) (hq : s.inCh.inq = v :: rest)
    (hw : s.writeAddress 1 = .ok d) : exec (.input m1) s =
      .next (((s.setIn ⟨rest, s.inCh.inClosed⟩).setMem (s.mem.write d.toNat v)).setPc (s.pc + 2)) := by
  rcases execInput_cases m1 s with ⟨_, _, _, hq', hw', e⟩ | ⟨hq', -⟩ | ⟨hq', -⟩ | ⟨hw', -⟩ | ⟨_, _, _, hw', -⟩
  · cases hq.symm.trans hq'
    cases hw.symm.trans hw'
    exact e
  · cases hq.symm.trans hq'
  · cases hq.symm.trans hq'
  · cases hw.symm.trans hw'
  · cases hw.symm.trans hw'

section
variable {s : State} (m1 : Mode) (hq : s.inCh.inq = [])
  (hres : s.params.inputOrder = .resolveFirst → ∃ d, s.writeAddress 1 = .ok d)
include hq hres

theorem exec_input_of_wait (hc : s.inCh.inClosed = false) : exec (.input m1) s = .next s := by
  rcases execInput_cases m1 s with ⟨_, _, _, hq', -⟩ | ⟨-, -, -, e⟩ | ⟨-, hc', -⟩ | ⟨hw', ho, -⟩ | ⟨_, _, hq', -⟩
  · cases hq.symm.trans hq'
  · exact e
  · cases hc.symm.trans hc'
  · obtain ⟨d, hd⟩ := hres ho
    cases hd.symm.trans hw'
  · cases hq.symm.trans hq'

theorem exec_input_of_exhausted (hc : s.inCh.inClosed = true) :
    exec (.input m1) s = .next (s.faultedState .inputExhausted) := by
  rcases execInput_cases m1 s with ⟨_, _, _, hq', -⟩ | ⟨-, hc', -⟩ | ⟨-, -, -, e⟩ | ⟨hw', ho, -⟩ | ⟨_, _, hq', -⟩
  · cases hq.symm.trans hq'
  · cases hc.symm.trans hc'
  · exact e
  · obtain ⟨d, hd⟩ := hres ho
    cases hd.symm.trans hw'
  · cases hq.symm.trans hq'

end

theorem exec_input_of_unresolved {s : State} (m1 : Mode) (hw : s.writeAddress 1 = .error .addressFault)
    (ho : s.params.inputOrder = .resolveFirst) : exec (.input m1) s = .next (s.faultedState .addressFault) := by
  rcases execInput_cases m1 s with
    ⟨_, _, _, -, hw', -⟩ | ⟨-, -, hres, -⟩ | ⟨-, -, hres, -⟩ | ⟨-, -, e⟩ | ⟨_, _, -, -, ho', -⟩
  · cases hw.symm.trans hw'
  · obtain ⟨d, hd⟩ := hres ho
    cases hw.symm.trans hd
  · obtain ⟨d, hd⟩ := hres ho
    cases hw.symm.trans hd
  · exact e
  · cases ho.symm.trans ho'

theorem exec_input_of_pulled_unresolved {s : State} {v : Int} {rest : List Int} (m1 : Mode)
    (hq : s.inCh.inq = v :: rest) (hw : s.writeAddress 1 = .error .addressFault)
    (ho : s.params.inputOrder = .pullFirst) :
    exec (.input m1) s = .next ((s.setIn ⟨rest, s.inCh.inClosed⟩).faultedState .addressFault) := by
  rcases execInput_cases m1 s with ⟨_, _, _, -, hw', -⟩ | ⟨hq', -⟩ | ⟨hq', -⟩ | ⟨-, ho', -⟩ | ⟨_, _, hq', -, -, e⟩
  · cases hw.symm.trans hw'
  · cases hq.symm.trans hq'
  · cases hq.symm.trans hq'
  · cases ho.symm.trans ho'
  · cases hq.symm.trans hq'
    exact e

/-! ## The statements -/

/-- Input's store, with its frame (R88). -/
theorem exec_input_stores {s : State} {v d : Int} {rest : List Int} (m1 : Mode) (hq : s.inCh.inq = v :: rest)
    (hw : s.writeAddress 1 = .ok d) :
    ∃ t, exec (.input m1) s = .next t ∧ Stored s t d v 2 ∧ t.inCh = ⟨rest, s.inCh.inClosed⟩ :=
  ⟨_, exec_input_of_value m1 hq hw, ⟨Memory.read_write_same s.mem d.toNat v,
    fun _ hx => Memory.read_write_other s.mem v hx, rfl, rfl, rfl, rfl, rfl⟩, rfl⟩

/-- Settles O23: with a value waiting and a destination that resolves, both orders store the value. -/
theorem inputStoresTheNextValue : Obligations.InputStoresTheNextValue := by
  intro m1 s v d rest hq hw
  obtain ⟨t, ht, hstored, hin⟩ := exec_input_stores m1 hq hw
  exact ⟨t, ht, hstored, by rw [hin], by rw [hin]⟩

/-- Settles O24: `Pull` answers Wait, in either order. -/
theorem inputStallsOnOpenEmptyInput : Obligations.InputStallsOnOpenEmptyInput := fun m1 _ hq hc hres =>
  exec_input_of_wait m1 hq hres hc

/-- Settles O25: `Pull` answers Exhausted, in either order. -/
theorem inputExhaustionIsAFault : Obligations.InputExhaustionIsAFault := fun m1 _ hq hc hres =>
  exec_input_of_exhausted m1 hq hres hc

theorem writeAddress_of_no_value {s : State} {k : Nat} (h : ∀ d, s.writeAddress k ≠ .ok d) :
    s.writeAddress k = .error .addressFault :=
  eq_addressFault_of_no_value (fun _ => State.writeAddress_error) h

/-- Settles O26: ResolveFirst faults at once, and PullFirst only once `Pull` has answered a value. -/
theorem inputDestinationFault : Obligations.InputDestinationFault := by
  intro m1 s hno
  have hw := writeAddress_of_no_value hno
  refine ⟨exec_input_of_unresolved m1 hw, fun ho => ?_⟩
  have hres : s.params.inputOrder = .resolveFirst → ∃ d, s.writeAddress 1 = .ok d := fun h => nomatch ho.symm.trans h
  exact ⟨fun v rest hq => exec_input_of_pulled_unresolved m1 hq hw ho, fun hq => exec_input_of_wait m1 hq hres,
    fun hq => exec_input_of_exhausted m1 hq hres⟩

/-- Settles O36: `raise` sets `run` and nothing else, and a value PullFirst has pulled is already gone by then. -/
theorem faultEntryRecordsTheDiagnostic : Obligations.FaultEntryRecordsTheDiagnostic :=
  ⟨fun s f => ⟨s.faultedState f, State.raise_eq s f, rfl, rfl, rfl, rfl, rfl, rfl,
      step_terminal (faultedState_terminal s f)⟩,
    fun m1 _ _ _ ho hq hno =>
      ⟨_, exec_input_of_pulled_unresolved m1 hq (writeAddress_of_no_value hno) ho, rfl, rfl, rfl, rfl⟩⟩

end Sys2Proof.Proofs.Input
end

section
/-! PROOFS. A store to the next instruction's index is fetched by the next step (spec/20_memory.md R48,
spec/70_reset_and_hazards.md R119). -/

namespace Sys2Proof.Proofs.SelfModification

open Sys2Proof.Machine Sys2Proof.Claims Sys2Proof.Proofs.Compare Sys2Proof.Proofs.Storing Sys2Proof.Proofs.Step
  Sys2Proof.Proofs.Input

/-- A store to the word behind the instruction is what the next step fetches. -/
theorem nextFetches_of_stored {s t : State} {i : Instr} {len : Nat} {v : Int} (hs : s.Fetches i)
    (ht : exec i s = .next t) (hd : s.InRange (s.pc + len)) (h : Stored s t (s.pc + len) v len) :
    NextFetches s len v := by
  obtain ⟨hread, -, hsize, hpc, hrun, -, -⟩ := h
  have hrange : t.InRange t.pc := by rw [hpc, State.InRange, hsize]; exact hd
  exact ⟨t, (step_of_fetches hs).trans ht, hrun.trans hs.1, hpc, State.fetch_ok_iff.2 ⟨hrange, by rw [hpc, hread]⟩⟩

theorem nextFetches_of_storeResult {s : State} {i : Instr} (op : Int → Int → Int) {m1 m2 : Mode} {a b : Int}
    (h1 : s.read 1 m1 = .ok a) (h2 : s.read 2 m2 = .ok b) (h3 : s.writeAddress 3 = .ok (s.pc + 4))
    (hi : exec i s = s.storeResult op m1 m2) (hs : s.Fetches i) : NextFetches s 4 (op a b) := by
  obtain ⟨t, ht, hstored, -⟩ := storeResult_stores op h1 h2 h3
  exact nextFetches_of_stored hs (hi.trans ht) (State.writeAddress_ok_iff.1 h3).2 hstored

/-- Settles O54: the four results of the F3RRD body, and the value Input pulls. -/
theorem nextFetchSeesTheStore : Obligations.NextFetchSeesTheStore := by
  refine fun m1 m2 m3 s => ⟨fun a b h1 h2 h3 => ?_, fun v rest hs hq hw => ?_⟩
  · exact ⟨nextFetches_of_storeResult (aluAdd s.params.width) h1 h2 h3 (exec_add m1 m2 m3 s),
      nextFetches_of_storeResult (aluMul s.params.width) h1 h2 h3 (exec_mul m1 m2 m3 s),
      nextFetches_of_storeResult aluLt h1 h2 h3 (exec_lessThan m1 m2 m3 s),
      nextFetches_of_storeResult aluEq h1 h2 h3 (exec_equals m1 m2 m3 s)⟩
  · obtain ⟨t, ht, hstored, -⟩ := exec_input_stores m1 hq hw
    exact nextFetches_of_stored hs ht (State.writeAddress_ok_iff.1 hw).2 hstored

end Sys2Proof.Proofs.SelfModification
end

section
/-! PROOFS. The conditional jumps of spec/43_control_flow.md R90 to R92, taken, not taken and faulting. -/

namespace Sys2Proof.Proofs.Jump

open Sys2Proof.Machine Sys2Proof.Claims Sys2Proof.Proofs.Encoding Sys2Proof.Proofs.Step Sys2Proof.Proofs.Invariant

/-! ## The F2RR body (R60, R8) -/

section
variable {s : State} {taken : Int → Bool} {m1 m2 : Mode} {c t : Int}

theorem jumpWhen_of_condition_error (h1 : s.read 1 m1 = .error .addressFault) :
    s.jumpWhen taken m1 m2 = .next (s.faultedState .addressFault) := by
  rw [State.jumpWhen, h1, State.attempt_error, State.raise_eq]

theorem jumpWhen_of_taken (h1 : s.read 1 m1 = .ok c) (hc : taken c = true) (h2 : s.read 2 m2 = .ok t) :
    s.jumpWhen taken m1 m2 = .next (s.setPc t) := by
  rw [State.jumpWhen, h1, State.attempt_ok]
  split <;> simp [hc, h2, State.complete_tgt]

theorem jumpWhen_of_not_taken (h1 : s.read 1 m1 = .ok c) (hc : taken c = false)
    (h2 : s.params.jumpTargetRead = .lazy ∨ ∃ t, s.read 2 m2 = .ok t) :
    s.jumpWhen taken m1 m2 = .next (s.setPc (s.pc + 3)) := by
  rw [State.jumpWhen, h1, State.attempt_ok]
  split
  · simp [hc, State.complete_seq]
  · next hp =>
    obtain ⟨t, ht⟩ := h2.resolve_left fun hl => nomatch hl.symm.trans hp
    simp [hc, ht, State.complete_seq]

theorem jumpWhen_of_target_error (h1 : s.read 1 m1 = .ok c) (h2 : s.read 2 m2 = .error .addressFault)
    (hc : taken c = true ∨ s.params.jumpTargetRead = .eager) :
    s.jumpWhen taken m1 m2 = .next (s.faultedState .addressFault) := by
  rw [State.jumpWhen, h1, State.attempt_ok, h2]
  split
  · next hp =>
    have ht : taken c = true := hc.resolve_right fun he => nomatch he.symm.trans hp
    simp [ht, State.raise_eq]
  · simp [State.raise_eq]

end

/-! ## The two jumps -/

theorem exec_jumpIfTrue (m1 m2 : Mode) (s : State) : exec (.jumpIfTrue m1 m2) s = s.jumpWhen aluNz m1 m2 := rfl

theorem exec_jumpIfFalse (m1 m2 : Mode) (s : State) :
    exec (.jumpIfFalse m1 m2) s = s.jumpWhen (fun c => !aluNz c) m1 m2 := rfl

theorem aluNz_eq_false_iff {c : Int} : aluNz c = false ↔ c = 0 := by simp [aluNz]

theorem not_aluNz_iff {c : Int} : (!aluNz c) = true ↔ c = 0 := by simp [aluNz]

theorem not_aluNz_eq_false_iff {c : Int} : (!aluNz c) = false ↔ c ≠ 0 := by simp [aluNz]

/-- Settles O28: the F2RR body taken on a condition that is not 0. -/
theorem jumpIfTrueSelectsThePc : Obligations.JumpIfTrueSelectsThePc := by
  intro m1 m2 s c h1
  rw [exec_jumpIfTrue]
  exact ⟨fun _ hc h2 => jumpWhen_of_taken h1 ((aluNz_iff _).2 hc) h2,
    fun hc h2 => jumpWhen_of_not_taken h1 (aluNz_eq_false_iff.2 hc) h2⟩

/-- Settles O29: the F2RR body taken on condition 0. -/
theorem jumpIfFalseSelectsThePc : Obligations.JumpIfFalseSelectsThePc := by
  intro m1 m2 s c h1
  rw [exec_jumpIfFalse]
  exact ⟨fun _ hc h2 => jumpWhen_of_taken h1 (not_aluNz_iff.2 hc) h2,
    fun hc h2 => jumpWhen_of_not_taken h1 (not_aluNz_eq_false_iff.2 hc) h2⟩

theorem read_of_no_value {s : State} {k : Nat} {m : Mode} (h : ∀ v, s.read k m ≠ .ok v) :
    s.read k m = .error .addressFault :=
  eq_addressFault_of_no_value (fun _ => State.read_error) h

/-- Settles O30: the condition faults both bodies, and the target where the body reads it. -/
theorem jumpsRaiseAddressFault : Obligations.JumpsRaiseAddressFault := by
  intro m1 m2 s
  rw [exec_jumpIfTrue, exec_jumpIfFalse]
  refine ⟨fun hno => ?_, fun c h1 hno => ?_⟩
  · have h1 := read_of_no_value hno
    exact ⟨jumpWhen_of_condition_error h1, jumpWhen_of_condition_error h1⟩
  · have h2 := read_of_no_value hno
    exact ⟨fun hc => jumpWhen_of_target_error h1 h2 (hc.imp_left (aluNz_iff c).2),
      fun hc => jumpWhen_of_target_error h1 h2 (hc.imp_left not_aluNz_iff.2)⟩

/-! ## Jumps in a step -/

/-- Settles O31: the step sets `pc` to what it is. -/
theorem jumpToSelfNeverEnds : Obligations.JumpToSelfNeverEnds := by
  intro m1 m2 s c hs h1 hc h2
  exact run_eq_self ((step_of_fetches hs).trans (jumpWhen_of_taken h1 ((aluNz_iff c).2 hc) h2))

/-- Settles O32: the jump only sets `pc`, and the fetch is what checks it. -/
theorem jumpOutOfRangeFaultsAtTheNextFetch : Obligations.JumpOutOfRangeFaultsAtTheNextFetch := by
  intro m1 m2 s c t h1 h2 hrange hjump
  have ⟨hr, hstep⟩ : s.run = .running ∧ step s = .next (s.setPc t) := by
    rcases hjump with ⟨hs, hc⟩ | ⟨hs, hc⟩
    · exact ⟨hs.1, (step_of_fetches hs).trans ((jumpIfTrueSelectsThePc m1 m2 s c h1).1 t hc h2)⟩
    · exact ⟨hs.1, (step_of_fetches hs).trans ((jumpIfFalseSelectsThePc m1 m2 s c h1).1 t hc h2)⟩
  exact ⟨s.setPc t, hstep, hr, rfl, step_of_not_inRange hr hrange⟩

end Sys2Proof.Proofs.Jump
end

section
/-! PROOFS. The assembler of spec/30_encoding.md R67 to R69: the disassembler undoes it, and the pseudo-instructions act
as their names say. -/

namespace Sys2Proof.Proofs.Assembler

open Sys2Proof.Machine Sys2Proof.Claims Sys2Proof.Proofs.Decoder Sys2Proof.Proofs.Compare Sys2Proof.Proofs.Alu
  Sys2Proof.Proofs.Jump

/-! ## Operands and their words (R67, R68) -/

/-- With no labels only a decimal integer resolves. -/
theorem eq_lit_of_resolve {x : AsmValue} {v : Int} (h : x.resolve [] = some v) : x = .lit v := by
  cases x with
  | lit u => cases h; rfl
  | label name => simp [AsmValue.resolve] at h

theorem operand_of_resolve {o : AsmOperand} {v : Int} (h : o.value.resolve [] = some v) : o.mode.operand v = o := by
  cases o <;> cases eq_lit_of_resolve h <;> rfl

/-- A destination is written `[v]`, which is what the disassembler writes for its word. -/
theorem dest_of_resolve {width : Nat} {o : AsmOperand} {v : Int} (hwf : o.destWellFormed width = true)
    (h : o.value.resolve [] = some v) : o = .pos (.lit v) := by
  cases o with
  | imm x => cases hwf
  | pos x => exact congrArg AsmOperand.pos (eq_lit_of_resolve h)

theorem resolveOperands_cons {labels : List (String × Nat)} {o : AsmOperand} {os : List AsmOperand} {ps : List Int}
    (h : resolveOperands labels (o :: os) = some ps) :
    ∃ v vs, ps = v :: vs ∧ o.value.resolve labels = some v ∧ resolveOperands labels os = some vs := by
  simp only [resolveOperands] at h
  split at h
  · next v vs hv hvs => cases h; exact ⟨v, vs, rfl, hv, hvs⟩
  · cases h

theorem resolveOperands_length {labels : List (String × Nat)} {os : List AsmOperand} {ps : List Int}
    (h : resolveOperands labels os = some ps) : ps.length = os.length := by
  induction os generalizing ps with
  | nil => cases h; rfl
  | cons o os ih =>
    obtain ⟨v, vs, rfl, -, hvs⟩ := resolveOperands_cons h
    rw [List.length_cons, List.length_cons, ih hvs]

theorem resolve_one {a : AsmOperand} {ps : List Int} (h : resolveOperands [] [a] = some ps) :
    ∃ v, ps = [v] ∧ a.value.resolve [] = some v := by
  obtain ⟨v, _, rfl, ha, h⟩ := resolveOperands_cons h
  cases h
  exact ⟨v, rfl, ha⟩

theorem resolve_two {a b : AsmOperand} {ps : List Int} (h : resolveOperands [] [a, b] = some ps) :
    ∃ u v, ps = [u, v] ∧ a.value.resolve [] = some u ∧ b.value.resolve [] = some v := by
  obtain ⟨u, _, rfl, ha, h⟩ := resolveOperands_cons h
  obtain ⟨v, rfl, hb⟩ := resolve_one h
  exact ⟨u, v, rfl, ha, hb⟩

theorem resolve_three {a b d : AsmOperand} {ps : List Int} (h : resolveOperands [] [a, b, d] = some ps) :
    ∃ u v x, ps = [u, v, x] ∧ a.value.resolve [] = some u ∧ b.value.resolve [] = some v ∧
      d.value.resolve [] = some x := by
  obtain ⟨u, _, rfl, ha, h⟩ := resolveOperands_cons h
  obtain ⟨v, x, rfl, hb, hd⟩ := resolve_two h
  exact ⟨u, v, x, rfl, ha, hb, hd⟩

/-- The parameter words of a well-formed instruction read back as its operands. -/
theorem withParams_of_resolve {width : Nat} {i : AsmInstr} {ps : List Int} (rest : List Int)
    (hwf : i.wellFormed width = true) (h : resolveOperands [] i.operands = some ps) :
    i.instr.withParams (ps ++ rest) = some (i, rest) := by
  cases i with
  | add a b d | mul a b d | lessThan a b d | equals a b d =>
    obtain ⟨u, v, x, rfl, ha, hb, hd⟩ := resolve_three h
    simp [AsmInstr.instr, Instr.withParams, operand_of_resolve ha, operand_of_resolve hb,
      ← dest_of_resolve (Bool.and_eq_true_iff.1 hwf).2 hd]
  | input d =>
    obtain ⟨x, rfl, hd⟩ := resolve_one h
    simp [AsmInstr.instr, Instr.withParams, Mode.operand, ← dest_of_resolve hwf hd]
  | output a =>
    obtain ⟨u, rfl, ha⟩ := resolve_one h
    simp [AsmInstr.instr, Instr.withParams, operand_of_resolve ha]
  | jumpIfTrue a t | jumpIfFalse a t =>
    obtain ⟨u, v, rfl, ha, ht⟩ := resolve_two h
    simp [AsmInstr.instr, Instr.withParams, operand_of_resolve ha, operand_of_resolve ht]
  | halt => cases h; rfl

/-- One opcode word and one word an operand (R59, R68). -/
theorem len_instr (i : AsmInstr) : i.instr.len = i.operands.length + 1 := by cases i <;> rfl

/-- Settles O10: the opcode word decodes to the instruction it encodes, which takes back the parameter words. -/
theorem disassembleOfAssemble : Obligations.DisassembleOfAssemble := by
  intro width i ws rest hwf hwords
  obtain ⟨ps, hps, rfl⟩ := Option.map_eq_some_iff.1 hwords
  constructor
  · simp [disassembleOne, decodeInstr_encode, withParams_of_resolve rest hwf hps]
  · rw [List.length_cons, resolveOperands_length hps, len_instr]

/-! ## The pseudo-instructions (R69) -/

theorem exec_jmp {t : AsmOperand} {s : State} {v : Int} (h1 : s.param 1 = .ok 1) (h2 : s.read 2 t.mode = .ok v) :
    exec (AsmInstr.jumpIfTrue (.imm (.lit 1)) t).instr s = .next (s.setPc v) :=
  jumpWhen_of_taken ((s.read_immediate 1).trans h1) rfl h2

/-- The sum of a word and 0 is the word, so `MOV` copies. -/
theorem exec_mov {a d : AsmOperand} {s : State} {v x : Int} (hwidth : 32 ≤ s.params.width)
    (hv : Word.Fits s.params.width v) (h1 : s.read 1 a.mode = .ok v) (h2 : s.param 2 = .ok 0)
    (h3 : s.writeAddress 3 = .ok x) :
    ∃ t, exec (AsmInstr.add a (.imm (.lit 0)) d).instr s = .next t ∧ Stored s t x v 4 ∧ t.inCh = s.inCh := by
  have hsum : aluAdd s.params.width v 0 = v := aluAdd_zero (by omega) hv
  obtain ⟨t, ht, hstored⟩ := storeResult_stores (aluAdd s.params.width) h1 ((s.read_immediate 2).trans h2) h3
  exact ⟨t, ht, hsum ▸ hstored⟩

/-- The target of `NOP3` is an immediate word, so it resolves under Eager too. -/
theorem exec_nop3 {s : State} (h1 : s.param 1 = .ok 0) (h2 : s.param 2 = .ok 0) :
    exec (AsmInstr.jumpIfTrue (.imm (.lit 0)) (.imm (.lit 0))).instr s = .next (s.setPc (s.pc + 3)) :=
  jumpWhen_of_not_taken ((s.read_immediate 1).trans h1) rfl (.inr ⟨0, (s.read_immediate 2).trans h2⟩)

/-- Settles O11: a jump on the condition 1, the sum with 0, and a jump on the condition 0. -/
theorem pseudoInstructionsActAsNamed : Obligations.PseudoInstructionsActAsNamed := by
  refine ⟨fun t s v h1 h2 => ⟨_, rfl, exec_jmp h1 h2⟩, fun a d s v x hwidth hv h1 h2 h3 => ?_,
    fun s h1 h2 => ⟨_, rfl, exec_nop3 h1 h2⟩⟩
  obtain ⟨t, ht, hstored⟩ := exec_mov hwidth hv h1 h2 h3
  exact ⟨_, t, rfl, ht, hstored⟩

end Sys2Proof.Proofs.Assembler
end

section
/-! PROOFS. The faults of spec/60_exceptions.md: what each category tells, that each fault is precise (R97 to R101), and
which step halts (R27, R95, R116). -/

namespace Sys2Proof.Proofs.Faults

open Sys2Proof.Machine Sys2Proof.Claims Sys2Proof.Proofs.Encoding Sys2Proof.Proofs.InputOutput
  Sys2Proof.Proofs.Decoder Sys2Proof.Proofs.Step Sys2Proof.Proofs.Jump Sys2Proof.Proofs.Invariant

/-! ## A parameter that makes no bad access resolves (R98) -/

theorem exists_read_of_not_badAccess {s : State} {k : Nat} {m : Mode} (h : ¬ BadAccess s k m) :
    ∃ v, s.read k m = .ok v := by
  rw [BadAccess, not_or, not_not] at h
  obtain ⟨hparam, hword⟩ := h
  cases m with
  | immediate => exact ⟨_, read_immediate_eq_ok_iff.2 ⟨hparam, rfl⟩⟩
  | position => exact ⟨_, read_position_eq_ok_iff.2 ⟨hparam, not_not.1 fun hno => hword ⟨rfl, hno⟩, rfl⟩⟩

theorem exists_writeAddress_of_not_badAccess {s : State} {k : Nat} (h : ¬ BadAccess s k .position) :
    ∃ d, s.writeAddress k = .ok d := by
  rw [BadAccess, not_or, not_not] at h
  obtain ⟨hparam, hword⟩ := h
  exact ⟨_, writeAddress_eq_ok_iff.2 ⟨hparam, not_not.1 fun hno => hword ⟨rfl, hno⟩, rfl⟩⟩

theorem badAccess_of_writeAddress_error {s : State} {k : Nat} {f : FaultCat} (h : s.writeAddress k = .error f) :
    BadAccess s k .position := by
  by_contra hno
  obtain ⟨d, hd⟩ := exists_writeAddress_of_not_badAccess hno
  cases h.symm.trans hd

/-! ## The faults of a body -/

/-- The faulted states an instruction can leave, each with what brought it about (R97, R98, R101). -/
inductive Raises (s : State) (i : Instr) : State → Prop where
  | access (bad : MakesBadAccess s i) : Raises s i (s.faultedState .addressFault)
  | pulled (m1 : Mode) (v : Int) (rest : List Int) (hi : i = .input m1) (ho : s.params.inputOrder = .pullFirst)
      (hq : s.inCh.inq = v :: rest) (bad : MakesBadAccess s i) :
      Raises s i ((s.setIn ⟨rest, s.inCh.inClosed⟩).faultedState .addressFault)
  | exhausted (m1 : Mode) (hi : i = .input m1) (hq : s.inCh.inq = []) (hc : s.inCh.inClosed = true) :
      Raises s i (s.faultedState .inputExhausted)

section
variable {s t : State} {d : Diag} (hr : s.run = .running) (hf : t.run = .faulted d)
include hr hf

/-- A body that leaves the machine Running has not faulted. -/
theorem not_completes {r : Result} {u : State} (ht : r = .next t) (e : r = .next u) (hu : u.run = s.run) : False := by
  cases ht.symm.trans e
  cases hr.symm.trans (hu.symm.trans hf)

/-- The F3RRD body faults for a bad access: with none it completes. -/
theorem storeResult_raises {op : Int → Int → Int} {m1 m2 : Mode} (ht : s.storeResult op m1 m2 = .next t) :
    (BadAccess s 1 m1 ∨ BadAccess s 2 m2 ∨ BadAccess s 3 .position) ∧ t = s.faultedState .addressFault := by
  constructor
  · by_contra hno
    simp only [not_or] at hno
    obtain ⟨hno1, hno2, hno3⟩ := hno
    obtain ⟨a, h1⟩ := exists_read_of_not_badAccess hno1
    obtain ⟨b, h2⟩ := exists_read_of_not_badAccess hno2
    obtain ⟨x, h3⟩ := exists_writeAddress_of_not_badAccess hno3
    exact not_completes hr hf ht (State.storeResult_ok h1 h2 h3) rfl
  · rcases s.storeResult_cases op m1 m2 with e | ⟨a, b, x, -, -, -, e⟩
    · exact Host.Outcome.next.inj (ht.symm.trans e)
    · exact (not_completes hr hf ht e rfl).elim

/-- The F2RR body faults for a bad access of its condition, or of the target where it resolves it. -/
theorem jumpWhen_raises {taken : Int → Bool} {p : Int → Prop} (hp : ∀ c, taken c = true ↔ p c) {m1 m2 : Mode}
    (ht : s.jumpWhen taken m1 m2 = .next t) :
    (BadAccess s 1 m1 ∨ TargetResolved s p m1 ∧ BadAccess s 2 m2) ∧ t = s.faultedState .addressFault := by
  constructor
  · by_contra hno
    rw [not_or, not_and_or] at hno
    obtain ⟨hno1, hno2⟩ := hno
    obtain ⟨c, h1⟩ := exists_read_of_not_badAccess hno1
    have hpass (hc : taken c = false) (h2 : s.params.jumpTargetRead = .lazy ∨ ∃ u, s.read 2 m2 = .ok u) : False :=
      not_completes hr hf ht (jumpWhen_of_not_taken h1 hc h2) rfl
    rcases hno2 with hlazy | hno2
    · have hc : taken c = false := by
        rw [← Bool.not_eq_true, hp]
        exact fun hc => hlazy ⟨c, h1, .inl hc⟩
      rcases hpol : s.params.jumpTargetRead with _ | _
      · exact hpass hc (.inl hpol)
      · exact hlazy ⟨c, h1, .inr hpol⟩
    · obtain ⟨u, h2⟩ := exists_read_of_not_badAccess hno2
      rcases hc : taken c with _ | _
      · exact hpass hc (.inr ⟨u, h2⟩)
      · exact not_completes hr hf ht (jumpWhen_of_taken h1 hc h2) rfl
  · rcases s.jumpWhen_cases taken m1 m2 with e | ⟨_, _, -, -, -, e⟩ | ⟨_, -, -, e⟩
    · exact Host.Outcome.next.inj (ht.symm.trans e)
    · exact (not_completes hr hf ht e rfl).elim
    · exact (not_completes hr hf ht e rfl).elim

theorem execOutput_raises {m1 : Mode} (ht : execOutput m1 s = .next t) :
    BadAccess s 1 m1 ∧ t = s.faultedState .addressFault := by
  constructor
  · by_contra hno
    obtain ⟨a, h1⟩ := exists_read_of_not_badAccess hno
    exact not_completes hr hf ht (exec_output_of_read h1) rfl
  · rcases execOutput_cases m1 s with e | ⟨a, -, e⟩
    · exact Host.Outcome.next.inj (ht.symm.trans e)
    · exact (not_completes hr hf ht e rfl).elim

theorem execInput_raises {m1 : Mode} (ht : execInput m1 s = .next t) : Raises s (.input m1) t := by
  rcases execInput_cases m1 s with
    ⟨v, rest, x, -, -, e⟩ | ⟨-, -, -, e⟩ | ⟨hq, hc, -, e⟩ | ⟨hw, -, e⟩ | ⟨v, rest, hq, hw, ho, e⟩
  · exact (not_completes hr hf ht e rfl).elim
  · exact (not_completes hr hf ht e rfl).elim
  · cases ht.symm.trans e
    exact .exhausted m1 rfl hq hc
  · cases ht.symm.trans e
    exact .access (badAccess_of_writeAddress_error hw)
  · cases ht.symm.trans e
    exact .pulled m1 v rest rfl ho hq (badAccess_of_writeAddress_error hw)

/-- Every fault of a body is one of `Raises`. -/
theorem exec_raises {i : Instr} (ht : exec i s = .next t) : Raises s i t := by
  cases i with
  | add | mul | lessThan | equals =>
    obtain ⟨bad, rfl⟩ := storeResult_raises hr hf ht
    exact .access bad
  | input => exact execInput_raises hr hf ht
  | output =>
    obtain ⟨bad, rfl⟩ := execOutput_raises hr hf ht
    exact .access bad
  | jumpIfTrue =>
    obtain ⟨bad, rfl⟩ := jumpWhen_raises hr hf aluNz_iff ht
    exact .access bad
  | jumpIfFalse =>
    obtain ⟨bad, rfl⟩ := jumpWhen_raises hr hf (fun _ => not_aluNz_iff) ht
    exact .access bad
  | halt => cases ht; cases hf

/-- Every fault of a step of a Running machine: no word to fetch, an Unknown word, or a fault of the body. -/
theorem step_raises (ht : step s = .next t) :
    (¬ s.InRange s.pc ∧ t = s.faultedState .addressFault) ∨
    (∃ w, s.fetch = .ok w ∧ (decode w).kind = .unknown ∧ t = s.faultedState .decodeFault) ∨
    ∃ i, s.Fetches i ∧ Raises s i t := by
  rcases step_cases s with ⟨hterm, -⟩ | ⟨-, hpc, e⟩ | ⟨w, err, -, hw, hd, e⟩ | ⟨w, i, -, hw, hd, e⟩
  · exact absurd hr hterm
  · exact .inl ⟨hpc, Host.Outcome.next.inj (ht.symm.trans e)⟩
  · exact .inr (.inl ⟨w, hw, decodeInstr_eq_error_iff.1 ⟨err, hd⟩, Host.Outcome.next.inj (ht.symm.trans e)⟩)
  · exact .inr (.inr ⟨i, ⟨hr, w, hw, hd⟩, exec_raises hr hf (e.symm.trans ht)⟩)

end

/-! ## Precision (R100, R101) -/

/-- All that R101 says of a fault but for the input. -/
def Precise (s t : State) (d : Diag) : Prop :=
  t.mem = s.mem ∧ t.pc = s.pc ∧ t.outCh = s.outCh ∧ t.params = s.params ∧ d.faultPc = s.pc ∧ d.faultWord = s.word? s.pc

theorem precise_faultedState {s : State} {f : FaultCat} {d : Diag} (hf : (s.faultedState f).run = .faulted d) :
    Precise s (s.faultedState f) d := by
  cases hf
  exact ⟨rfl, rfl, rfl, rfl, rfl, rfl⟩

/-- What R101 says of the input: it is unchanged but for the value a PullFirst Input has pulled. -/
def InputKept (s t : State) (d : Diag) : Prop :=
  t.inCh = s.inCh ∨
    (s.params.inputOrder = .pullFirst ∧ d.faultCat = .addressFault ∧ (∃ m1, s.Fetches (.input m1)) ∧
      ∃ v, s.inCh.inq = v :: t.inCh.inq ∧ t.inCh.inClosed = s.inCh.inClosed)

/-- The one fault that is not raised from the state before the step is that of a PullFirst Input. -/
theorem step_precise {s t : State} {d : Diag} (hr : s.run = .running) (ht : step s = .next t)
    (hf : t.run = .faulted d) : Precise s t d ∧ InputKept s t d := by
  rcases step_raises hr hf ht with ⟨-, rfl⟩ | ⟨w, -, -, rfl⟩ | ⟨i, hs, raises⟩
  · exact ⟨precise_faultedState hf, .inl rfl⟩
  · exact ⟨precise_faultedState hf, .inl rfl⟩
  · cases raises with
    | access => exact ⟨precise_faultedState hf, .inl rfl⟩
    | exhausted => exact ⟨precise_faultedState hf, .inl rfl⟩
    | pulled m1 v rest hi ho hq =>
      cases hf
      exact ⟨⟨rfl, rfl, rfl, rfl, rfl, rfl⟩, .inr ⟨ho, rfl, ⟨m1, hi ▸ hs⟩, v, hq, rfl⟩⟩

/-- Settles O37: `raise` changes `run` only, and what PullFirst pulls it pulls before that. -/
theorem faultsArePrecise : Obligations.FaultsArePrecise := by
  intro s t d hr ht hf
  obtain ⟨⟨hmem, hpc, hout, hparams, hfpc, hfword⟩, hin⟩ := step_precise hr ht hf
  exact ⟨hmem, hpc, hout, hparams, hfpc, hfword, hin⟩

/-! ## Categories (R97, R98) -/

theorem word?_eq_none_iff {s : State} {a : Int} : s.word? a = none ↔ ¬ s.InRange a := by
  unfold State.word?
  split <;> simp_all

theorem inRange_of_fetches {s : State} {i : Instr} (h : s.Fetches i) : s.InRange s.pc := by
  obtain ⟨-, w, hw, -⟩ := h
  exact (State.fetch_ok_iff.1 hw).1

/-- An instruction was fetched, so the word at `pc` is not Unknown. -/
theorem known_of_fetches {s : State} {i : Instr} (h : s.Fetches i) :
    ¬ ∃ w, s.fetch = .ok w ∧ (decode w).kind = .unknown := by
  rintro ⟨w, hw, hk⟩
  obtain ⟨-, w', hw', hd⟩ := h
  cases hw.symm.trans hw'
  exact exists_decodeInstr_ok_iff.1 ⟨i, hd⟩ hk

/-- Settles O38: one case of `step_raises` for each cause, and the diagnostic's word from precision. -/
theorem faultCategoriesNameTheirCauses : Obligations.FaultCategoriesNameTheirCauses := by
  intro s t d hr ht hf
  have hword : d.faultWord = none ↔ ¬ s.InRange s.pc := by
    obtain ⟨⟨-, -, -, -, -, hfword⟩, -⟩ := step_precise hr ht hf
    rw [hfword, word?_eq_none_iff]
  rw [hword]
  rcases step_raises hr hf ht with ⟨hpc, rfl⟩ | ⟨w, hw, hk, rfl⟩ | ⟨i, hs, raises⟩
  · cases hf
    refine ⟨⟨nofun, ?_⟩, nofun, fun _ => .inl hpc, Iff.rfl, fun _ => rfl⟩
    rintro ⟨w, hw, -⟩
    exact absurd (State.fetch_ok_iff.1 hw).1 hpc
  · cases hf
    exact ⟨⟨fun _ => ⟨w, hw, hk⟩, fun _ => rfl⟩, nofun, nofun, Iff.rfl,
      fun hpc => absurd (State.fetch_ok_iff.1 hw).1 hpc⟩
  · have hrange := inRange_of_fetches hs
    have hknown := known_of_fetches hs
    cases raises with
    | access bad =>
      cases hf
      exact ⟨⟨nofun, fun h => absurd h hknown⟩, nofun, fun _ => .inr ⟨i, hs, bad⟩, Iff.rfl, fun _ => rfl⟩
    | pulled m1 v rest hi ho hq bad =>
      cases hf
      exact ⟨⟨nofun, fun h => absurd h hknown⟩, nofun, fun _ => .inr ⟨i, hs, bad⟩, Iff.rfl, fun _ => rfl⟩
    | exhausted m1 hi hq hc =>
      cases hf
      exact ⟨⟨nofun, fun h => absurd h hknown⟩, fun _ => ⟨⟨m1, hi ▸ hs⟩, hq, hc⟩, nofun, Iff.rfl,
        fun hpc => absurd hrange hpc⟩

/-! ## Halting (R27, R95) -/

/-- Every instruction but Halt leaves the run state or faults. -/
theorem exec_run_of_ne_halt {i : Instr} {s t : State} (hi : i ≠ .halt) (ht : exec i s = .next t) :
    t.run = s.run ∨ ∃ d, t.run = .faulted d := by
  cases i with
  | add m1 m2 m3 | mul m1 m2 m3 | lessThan m1 m2 m3 | equals m1 m2 m3 =>
    rcases State.storeResult_cases s _ m1 m2 with e | ⟨_, _, _, -, -, -, e⟩ <;> cases ht.symm.trans e
    · exact .inr ⟨_, rfl⟩
    · exact .inl rfl
  | input m1 =>
    rcases execInput_cases m1 s with
      ⟨_, _, _, -, -, e⟩ | ⟨-, -, -, e⟩ | ⟨-, -, -, e⟩ | ⟨-, -, e⟩ | ⟨_, _, -, -, -, e⟩ <;> cases ht.symm.trans e
    · exact .inl rfl
    · exact .inl rfl
    · exact .inr ⟨_, rfl⟩
    · exact .inr ⟨_, rfl⟩
    · exact .inr ⟨_, rfl⟩
  | output m1 =>
    rcases execOutput_cases m1 s with e | ⟨_, -, e⟩ <;> cases ht.symm.trans e
    · exact .inr ⟨_, rfl⟩
    · exact .inl rfl
  | jumpIfTrue m1 m2 | jumpIfFalse m1 m2 =>
    rcases State.jumpWhen_cases s _ m1 m2 with e | ⟨_, _, -, -, -, e⟩ | ⟨_, -, -, e⟩ <;> cases ht.symm.trans e
    · exact .inr ⟨_, rfl⟩
    · exact .inl rfl
    · exact .inl rfl
  | halt => exact absurd rfl hi

theorem exec_halted_iff {i : Instr} {s t : State} (hr : s.run = .running) (ht : exec i s = .next t) :
    t.run = .halted ↔ i = .halt := by
  constructor
  · intro h
    by_contra hi
    rcases exec_run_of_ne_halt hi ht with e | ⟨d, e⟩
    · cases h.symm.trans (e.trans hr)
    · cases h.symm.trans e
  · rintro rfl
    cases ht
    rfl

theorem fetches_halt_iff {s : State} {w : Int} {i : Instr} (hr : s.run = .running) (hw : s.fetch = .ok w)
    (hd : decodeInstr w = .ok i) : s.Fetches .halt ↔ i = .halt := by
  constructor
  · rintro ⟨-, w', hw', hd'⟩
    cases hw.symm.trans hw'
    cases hd.symm.trans hd'
    rfl
  · rintro rfl
    exact ⟨hr, w, hw, hd⟩

theorem step_halted_iff {s t : State} (hr : s.run = .running) (ht : step s = .next t) :
    t.run = .halted ↔ s.Fetches .halt := by
  rcases step_cases s with ⟨hterm, -⟩ | ⟨-, hpc, e⟩ | ⟨w, err, -, hw, hd, e⟩ | ⟨w, i, -, hw, hd, e⟩
  · exact absurd hr hterm
  · cases ht.symm.trans e
    exact ⟨nofun, fun hs => absurd (inRange_of_fetches hs) hpc⟩
  · cases ht.symm.trans e
    exact ⟨nofun, fun hs => absurd ⟨w, hw, decodeInstr_eq_error_iff.1 ⟨err, hd⟩⟩ (known_of_fetches hs)⟩
  · rw [exec_halted_iff hr (e.symm.trans ht), fetches_halt_iff hr hw hd]

/-! ## Runs from a fetched Halt (R116) -/

/-- The machine is Halted, or becomes so by its next step, whatever the host does to the input before. -/
def HaltsNext (s : State) : Prop := s.Fetches .halt ∨ s.run = .halted

theorem step_of_haltsNext {s t : State} (h : HaltsNext s) (ht : step s = .next t) : t.run = .halted := by
  rcases h with hs | hhalted
  · exact (step_halted_iff hs.1 ht).2 hs
  · have hterm : s.run ≠ .running := fun hr => nomatch hhalted.symm.trans hr
    cases (step_terminal hterm).symm.trans ht
    exact hhalted

theorem act_of_haltsNext {s t : State} {a : HostAct} (h : HaltsNext s) (hact : s.act a = some t) : HaltsNext t := by
  rcases State.act_cases hact with ⟨-, hstep⟩ | ⟨ws, -, -, -, rfl⟩ | ⟨-, rfl⟩
  · exact .inr (step_of_haltsNext h hstep)
  · exact h
  · exact h

theorem runAt_of_haltsNext {s t : State} {acts : Nat → HostAct} {n : Nat} (h : HaltsNext s)
    (ht : s.runAt acts n = some t) : HaltsNext t :=
  drive_induction (P := fun s t => HaltsNext s → HaltsNext t) (fun _ h => h)
    (fun _ _ _ _ hact ih h => ih (act_of_haltsNext h hact)) _ s t ht h

/-- The first step the host asks for is enough. -/
theorem alwaysHalts_of_haltsNext {s : State} (h : HaltsNext s) : s.AlwaysHalts := by
  intro acts hallows hdrives _
  obtain ⟨m, -, hm⟩ := hdrives 0
  obtain ⟨t, ht⟩ := hallows (m + 1)
  refine ⟨m + 1, t, ht, ?_⟩
  rw [State.runAt_succ, Option.bind_eq_some_iff] at ht
  obtain ⟨u, hu, hact⟩ := ht
  rcases State.act_cases hact with ⟨-, hstep⟩ | ⟨_, hfeed, -⟩ | ⟨hclose, -⟩
  · exact step_of_haltsNext (runAt_of_haltsNext h hu) hstep
  · cases hm.symm.trans hfeed
  · cases hm.symm.trans hclose

/-- Settles O48: only the body of Halt sets `run` to Halted, and no act of the host undoes the fetch of Halt. -/
theorem haltedExactlyByHalt : Obligations.HaltedExactlyByHalt :=
  ⟨fun _ _ => step_halted_iff, fun _ h => alwaysHalts_of_haltsNext (.inl h)⟩

end Sys2Proof.Proofs.Faults
end

section
/-! PROOFS. What an instruction does not depend on and does not touch: memory (R23), the input device (R82), the output
(R109), and the two policies (R8, R9). All but the first say that exec commutes with replacing one piece of state. -/

namespace Sys2Proof.Proofs.Noninterference

open Sys2Proof.Machine Sys2Proof.Claims Sys2Proof.Proofs.InputOutput Sys2Proof.Proofs.Decoder Sys2Proof.Proofs.Step
  Sys2Proof.Proofs.Input Sys2Proof.Proofs.Jump

/-! ## Memory (R23) -/

/-- Settles O47: the bodies of Output, of the jumps and of Halt, outcome by outcome. -/
theorem onlyStoringInstructionsWriteMemory : Obligations.OnlyStoringInstructionsWriteMemory := by
  intro i s t hstores hinput ht
  cases i with
  | add | mul | lessThan | equals => cases hstores
  | input => cases hinput
  | output m1 =>
    rcases execOutput_cases m1 s with e | ⟨_, -, e⟩ <;> cases ht.symm.trans e <;> rfl
  | jumpIfTrue m1 m2 | jumpIfFalse m1 m2 =>
    rcases State.jumpWhen_cases s _ m1 m2 with e | ⟨_, _, -, -, -, e⟩ | ⟨_, -, -, e⟩ <;> cases ht.symm.trans e <;> rfl
  | halt => cases ht; rfl

/-! ## Replacing a piece of state -/

/-- An answer with its next state replaced. -/
def mapNext (g : State → State) : Result → Result
  | .next s => .next (g s)
  | .fault r => .fault r
  | .refused r => .refused r

/-- `g` replaces pieces of state other than memory with its size, `pc`, `run` and the width, whatever those hold. -/
structure Replaces (g : State → State) : Prop where
  mem : ∀ s, (g s).mem = s.mem
  pc : ∀ s, (g s).pc = s.pc
  width : ∀ s, (g s).params.width = s.params.width
  setMem : ∀ s m, (g s).setMem m = g (s.setMem m)
  setPc : ∀ s p, (g s).setPc p = g (s.setPc p)
  setRun : ∀ s r, (g s).setRun r = g (s.setRun r)

theorem replaces_setIn (dev : InputDevice) : Replaces fun s => s.setIn dev := by
  constructor <;> intros <;> rfl

theorem replaces_setOut (dev : OutputDevice) : Replaces fun s => s.setOut dev := by
  constructor <;> intros <;> rfl

theorem replaces_targetRead (p : JumpTargetRead) : Replaces fun s => withTargetRead s p := by
  constructor <;> intros <;> rfl

theorem replaces_inputOrder (o : InputOrder) : Replaces fun s => withInputOrder s o := by
  constructor <;> intros <;> rfl

section
variable {g : State → State} (hg : Replaces g) (s : State)
include hg

theorem read_replaced (k : Nat) (m : Mode) : (g s).read k m = s.read k m := State.read_congr (hg.mem s) (hg.pc s) k m

theorem writeAddress_replaced (k : Nat) : (g s).writeAddress k = s.writeAddress k :=
  State.writeAddress_congr (hg.mem s) (hg.pc s) k

theorem faultedState_replaced (f : FaultCat) : (g s).faultedState f = g (s.faultedState f) := by
  rw [State.faultedState, State.faultedState, hg.setRun, hg.pc]
  unfold State.word? State.InRange
  rw [hg.mem]

theorem stored_replaced (d : Nat) (v p : Int) :
    ((g s).setMem ((g s).mem.write d v)).setPc p = g ((s.setMem (s.mem.write d v)).setPc p) := by
  rw [hg.mem, hg.setMem, hg.setPc]

theorem attempt_replaced {α : Type} {r : Except FaultCat α} {k k' : α → Result}
    (h : ∀ a, r = .ok a → k' a = mapNext g (k a)) : (g s).attempt r k' = mapNext g (s.attempt r k) := by
  rcases r with f | a
  · rw [State.attempt_error, State.attempt_error, State.raise_eq, State.raise_eq, faultedState_replaced hg, mapNext]
  · exact h a rfl

/-- The F3RRD body commutes with the replacement: it looks at memory and `pc` only. -/
theorem storeResult_replaced (op : Int → Int → Int) (m1 m2 : Mode) :
    (g s).storeResult op m1 m2 = mapNext g (s.storeResult op m1 m2) := by
  unfold State.storeResult
  rw [read_replaced hg, read_replaced hg, writeAddress_replaced hg]
  refine attempt_replaced hg s fun a _ => attempt_replaced hg s fun b _ => attempt_replaced hg s fun d hd => ?_
  have hs : s.InRange d := (State.writeAddress_ok_iff.1 hd).2
  have hgs : (g s).InRange d := (State.writeAddress_ok_iff.1 ((writeAddress_replaced hg s 3).trans hd)).2
  rw [State.memWrite_of_inRange _ hs, State.memWrite_of_inRange _ hgs, State.attempt_ok, State.attempt_ok,
    State.complete_seq, State.complete_seq, State.setMem_pc, State.setMem_pc, hg.pc, stored_replaced hg, mapNext]

/-- So does the F2RR body where the policy stays. -/
theorem jumpWhen_replaced_of_policy_eq (taken : Int → Bool) (m1 m2 : Mode)
    (hpol : (g s).params.jumpTargetRead = s.params.jumpTargetRead) :
    (g s).jumpWhen taken m1 m2 = mapNext g (s.jumpWhen taken m1 m2) := by
  have hseq : (g s).complete (.seq 3) = mapNext g (s.complete (.seq 3)) := by
    rw [State.complete_seq, State.complete_seq, hg.setPc, hg.pc, mapNext]
  have htgt (t : Int) : (g s).complete (.tgt t) = mapNext g (s.complete (.tgt t)) := by
    rw [State.complete_tgt, State.complete_tgt, hg.setPc, mapNext]
  unfold State.jumpWhen
  rw [hpol, read_replaced hg, read_replaced hg]
  refine attempt_replaced hg s fun c _ => ?_
  rcases s.params.jumpTargetRead with _ | _ <;> rcases taken c with _ | _
  · exact hseq
  · exact attempt_replaced hg s fun t _ => htgt t
  · exact attempt_replaced hg s fun t _ => hseq
  · exact attempt_replaced hg s fun t _ => htgt t

/-- And where both policies treat the jump alike: then the body does what its condition and its target say. -/
theorem jumpWhen_replaced_of_policyFree {taken : Int → Bool} {p : Int → Prop} (hp : ∀ c, taken c = true ↔ p c)
    {m1 m2 : Mode} (hfree : PolicyFree s p m1 m2) :
    (g s).jumpWhen taken m1 m2 = mapNext g (s.jumpWhen taken m1 m2) := by
  have hr1 := read_replaced hg s 1 m1
  have hr2 := read_replaced hg s 2 m2
  rcases h1 : s.read 1 m1 with f | c
  · obtain rfl := State.read_error h1
    rw [jumpWhen_of_condition_error h1, jumpWhen_of_condition_error (hr1.trans h1), faultedState_replaced hg, mapNext]
  rcases h2 : s.read 2 m2 with f | t
  · obtain rfl := State.read_error h2
    have hc : taken c = true := by
      rcases hfree with ⟨v, hv⟩ | ⟨c', hc', hpc⟩ | hno
      · cases h2.symm.trans hv
      · cases h1.symm.trans hc'
        exact (hp c).2 hpc
      · exact absurd h1 (hno c)
    rw [jumpWhen_of_target_error h1 h2 (.inl hc), jumpWhen_of_target_error (hr1.trans h1) (hr2.trans h2) (.inl hc),
      faultedState_replaced hg, mapNext]
  rcases hc : taken c with _ | _
  · rw [jumpWhen_of_not_taken h1 hc (.inr ⟨t, h2⟩),
      jumpWhen_of_not_taken (hr1.trans h1) hc (.inr ⟨t, hr2.trans h2⟩), hg.setPc, hg.pc, mapNext]
  · rw [jumpWhen_of_taken h1 hc h2, jumpWhen_of_taken (hr1.trans h1) hc (hr2.trans h2), hg.setPc, mapNext]

theorem jumpWhen_replaced {taken : Int → Bool} {p : Int → Prop} (hp : ∀ c, taken c = true ↔ p c) {m1 m2 : Mode}
    (h : (g s).params.jumpTargetRead = s.params.jumpTargetRead ∨ PolicyFree s p m1 m2) :
    (g s).jumpWhen taken m1 m2 = mapNext g (s.jumpWhen taken m1 m2) :=
  h.elim (jumpWhen_replaced_of_policy_eq hg s taken m1 m2) (jumpWhen_replaced_of_policyFree hg s hp)

/-- So does Output, if a push commutes with the replacement. -/
theorem exec_output_replaced (m1 : Mode) (hpush : ∀ v, (g s).push v = g (s.push v)) :
    exec (.output m1) (g s) = mapNext g (exec (.output m1) s) := by
  change (g s).attempt _ _ = mapNext g (s.attempt _ _)
  rw [read_replaced hg]
  refine attempt_replaced hg s fun v _ => ?_
  rw [State.complete_seq, State.complete_seq, State.push_pc, State.push_pc, hpush, hg.setPc, hg.pc, mapNext]

/-- So does Input, if the input device stays, and the order stays or makes no difference. -/
theorem exec_input_replaced (m1 : Mode) (hin : (g s).inCh = s.inCh) (hsetIn : ∀ dev, (g s).setIn dev = g (s.setIn dev))
    (ho : (g s).params.inputOrder = s.params.inputOrder ∨ ∃ d, s.writeAddress 1 = .ok d) :
    exec (.input m1) (g s) = mapNext g (exec (.input m1) s) := by
  have hwa := writeAddress_replaced hg s 1
  have hresolves (hres : s.params.inputOrder = .resolveFirst → ∃ d, s.writeAddress 1 = .ok d)
      (h : (g s).params.inputOrder = .resolveFirst) : ∃ d, (g s).writeAddress 1 = .ok d := by
    rw [hwa]
    rcases ho with ho | ho
    · exact hres (ho.symm.trans h)
    · exact ho
  have hsame (hw : s.writeAddress 1 = .error .addressFault) : (g s).params.inputOrder = s.params.inputOrder :=
    ho.resolve_right fun ⟨_, hd⟩ => nomatch hw.symm.trans hd
  rcases execInput_cases m1 s with
    ⟨v, rest, d, hq, hw, e⟩ | ⟨hq, hc, hres, e⟩ | ⟨hq, hc, hres, e⟩ | ⟨hw, hord, e⟩ | ⟨v, rest, hq, hw, hord, e⟩ <;>
    rw [show exec (.input m1) s = _ from e, mapNext]
  · rw [exec_input_of_value m1 (hin ▸ hq) (hwa.trans hw), hin, hsetIn, hg.mem, hg.pc, hg.setMem, hg.setPc]
  · exact exec_input_of_wait m1 (hin ▸ hq) (hresolves hres) (hin ▸ hc)
  · rw [exec_input_of_exhausted m1 (hin ▸ hq) (hresolves hres) (hin ▸ hc), faultedState_replaced hg]
  · rw [exec_input_of_unresolved m1 (hwa.trans hw) ((hsame hw).trans hord), faultedState_replaced hg]
  · rw [exec_input_of_pulled_unresolved m1 (hin ▸ hq) (hwa.trans hw) ((hsame hw).trans hord), hin, hsetIn,
      faultedState_replaced hg]

/-- Every instruction commutes with the replacement if the bodies of Input, of Output and of the jumps do. -/
theorem exec_replaced (i : Instr)
    (hinput : ∀ m1, i = .input m1 → exec (.input m1) (g s) = mapNext g (exec (.input m1) s))
    (houtput : ∀ m1, i = .output m1 → exec (.output m1) (g s) = mapNext g (exec (.output m1) s))
    (hjump : (g s).params.jumpTargetRead = s.params.jumpTargetRead ∨
      (∀ m1 m2, i = .jumpIfTrue m1 m2 → PolicyFree s (fun c => c ≠ 0) m1 m2) ∧
      ∀ m1 m2, i = .jumpIfFalse m1 m2 → PolicyFree s (fun c => c = 0) m1 m2) :
    exec i (g s) = mapNext g (exec i s) := by
  cases i with
  | add m1 m2 =>
    rw [Storing.exec_add, Storing.exec_add, hg.width, storeResult_replaced hg]
  | mul m1 m2 =>
    rw [Storing.exec_mul, Storing.exec_mul, hg.width, storeResult_replaced hg]
  | lessThan m1 m2 => exact storeResult_replaced hg s aluLt m1 m2
  | equals m1 m2 => exact storeResult_replaced hg s aluEq m1 m2
  | input m1 => exact hinput m1 rfl
  | output m1 => exact houtput m1 rfl
  | jumpIfTrue m1 m2 => exact jumpWhen_replaced hg s aluNz_iff (hjump.imp_right fun h => h.1 m1 m2 rfl)
  | jumpIfFalse m1 m2 => exact jumpWhen_replaced hg s (fun _ => not_aluNz_iff) (hjump.imp_right fun h => h.2 m1 m2 rfl)
  | halt => exact congrArg Host.Outcome.next (hg.setRun s .halted)

end

/-! ## The input device (R82) -/

theorem exec_setIn {i : Instr} (hi : isInput i = false) (s : State) (dev : InputDevice) :
    exec i (s.setIn dev) = mapNext (fun t => t.setIn dev) (exec i s) := by
  refine exec_replaced (replaces_setIn dev) s i ?_ ?_ (.inl rfl)
  · rintro m1 rfl
    cases hi
  · exact fun m1 _ => exec_output_replaced (replaces_setIn dev) s m1 fun _ => rfl

/-- Settles O50; the device is left as it is, since the instruction commutes with replacing it by itself. -/
theorem onlyInputDependsOnTheInputDevice : Obligations.OnlyInputDependsOnTheInputDevice := by
  intro i s t dev hi ht
  have hset (dev : InputDevice) : exec i (s.setIn dev) = .next (t.setIn dev) := by rw [exec_setIn hi, ht, mapNext]
  have hself : t.setIn s.inCh = t := Host.Outcome.next.inj ((hset s.inCh).symm.trans ht)
  exact ⟨(congrArg State.inCh hself).symm, hset dev⟩

/-! ## The output (R109) -/

/-- `pushed` is what `r` and `r'` add to the outputs of `s` and of `s.setOut dev`, and nothing else differs. -/
def SamePush (s : State) (dev : OutputDevice) (r r' : Result) : Prop :=
  ∃ t pushed, r = .next t ∧ t.outCh.outq = s.outCh.outq ++ pushed ∧ r' = .next (t.setOut ⟨dev.outq ++ pushed⟩)

theorem samePush_of_no_push {s t : State} {dev : OutputDevice} {r r' : Result} (hr : r = .next t)
    (hout : t.outCh = s.outCh) (hr' : r' = .next (t.setOut dev)) : SamePush s dev r r' :=
  ⟨t, [], hr, by rw [hout, List.append_nil], by rw [hr', List.append_nil]⟩

theorem exec_output_samePush (m1 : Mode) (s : State) (dev : OutputDevice) :
    SamePush s dev (exec (.output m1) s) (exec (.output m1) (s.setOut dev)) := by
  have hread := read_replaced (replaces_setOut dev) s 1 m1
  rcases h : s.read 1 m1 with f | a
  · obtain rfl := State.read_error h
    have hfault {u : State} (hu : u.read 1 m1 = .error .addressFault) :
        exec (.output m1) u = .next (u.faultedState .addressFault) := by
      change u.attempt _ _ = _
      rw [hu, State.attempt_error, State.raise_eq]
    exact samePush_of_no_push (hfault h) rfl (hfault (hread.trans h))
  · exact ⟨_, [a], exec_output_of_read h, rfl, exec_output_of_read (hread.trans h)⟩

theorem exec_samePush (i : Instr) (s : State) (dev : OutputDevice) :
    SamePush s dev (exec i s) (exec i (s.setOut dev)) := by
  by_cases hi : ∃ m1, i = .output m1
  · obtain ⟨m1, rfl⟩ := hi
    exact exec_output_samePush m1 s dev
  · have hset (dev : OutputDevice) : exec i (s.setOut dev) = mapNext (fun t => t.setOut dev) (exec i s) :=
      exec_replaced (replaces_setOut dev) s i
        (fun m1 _ => exec_input_replaced (replaces_setOut dev) s m1 rfl (fun _ => rfl) (.inl rfl))
        (fun m1 h => absurd ⟨m1, h⟩ hi) (.inl rfl)
    obtain ⟨t, ht, -⟩ := exec_effect i s
    have hself : t.setOut s.outCh = t := by
      have h := hset s.outCh
      rw [ht, mapNext] at h
      exact Host.Outcome.next.inj (h.symm.trans ht)
    exact samePush_of_no_push ht (congrArg State.outCh hself).symm (by rw [hset, ht, mapNext])

theorem step_samePush (s : State) (dev : OutputDevice) : SamePush s dev (step s) (step (s.setOut dev)) := by
  rcases step_cases s with ⟨hr, e⟩ | ⟨hr, hpc, e⟩ | ⟨w, err, hr, hw, hd, e⟩ | ⟨w, i, hr, hw, hd, e⟩
  · exact samePush_of_no_push e rfl (step_terminal hr)
  · exact samePush_of_no_push e rfl (step_fetch_error hr (State.memRead_error_iff.2 ⟨hpc, rfl⟩))
  · exact samePush_of_no_push e rfl (step_unknown hr hw hd)
  · have hs : (s.setOut dev).Fetches i := ⟨hr, w, hw, hd⟩
    rw [e, step_of_fetches hs]
    exact exec_samePush i s dev

/-- Settles O51: each case of the step, on the two machines side by side. -/
theorem outputIsNeverRead : Obligations.OutputIsNeverRead := by
  intro s t dev ht
  obtain ⟨u, pushed, hu, hout, hu'⟩ := step_samePush s dev
  cases ht.symm.trans hu
  exact ⟨pushed, hout, hu'⟩

/-! ## The policies (R8, R9) -/

/-- Settles O52: the target's policy is read by the jumps only, and where it makes a difference is shut out. -/
theorem targetReadPoliciesAgree : Obligations.TargetReadPoliciesAgree := by
  intro s t i p q hjt hjf ht
  have h := exec_replaced (replaces_targetRead q) (withTargetRead s p) i
    (fun m1 _ => exec_input_replaced (replaces_targetRead q) _ m1 rfl (fun _ => rfl) (.inl rfl))
    (fun m1 _ => exec_output_replaced (replaces_targetRead q) _ m1 fun _ => rfl) (.inr ⟨hjt, hjf⟩)
  rw [ht, mapNext] at h
  exact h

/-- Settles O53: the order is read by Input only, and where it makes a difference is shut out. -/
theorem inputOrdersAgree : Obligations.InputOrdersAgree := by
  intro s t i p q hres ht
  have h := exec_replaced (replaces_inputOrder q) (withInputOrder s p) i
    (fun m1 hi => exec_input_replaced (replaces_inputOrder q) _ m1 rfl (fun _ => rfl) (.inr (hres m1 hi)))
    (fun m1 _ => exec_output_replaced (replaces_inputOrder q) _ m1 fun _ => rfl) (.inl rfl)
  rw [ht, mapNext] at h
  exact h

end Sys2Proof.Proofs.Noninterference
end

section
/-! PROOFS. The host's side of the machine: construction, feeding, the status port and inspection
(spec/60_exceptions.md R108 to R110, spec/70_reset_and_hazards.md R112 to R116). -/

namespace Sys2Proof.Proofs.HostPort

open Sys2Proof.Machine Sys2Proof.Claims Sys2Proof.Proofs.ExecutionStep Sys2Proof.Proofs.Step Sys2Proof.Proofs.Input
  Sys2Proof.Proofs.Invariant

/-! ## Construction (R112, R113) -/

theorem construct_eq_some_iff {p : Params} {prog : List Int} {source : InputDevice} {s : State} :
    construct p prog source = some s ↔
      (32 ≤ p.width ∧ prog.length ≤ p.maxSize ∧ (∀ v ∈ prog, Word.Fits p.width v) ∧
        ∀ v ∈ source.inq, Word.Fits p.width v) ∧ State.ofProgram p prog source = s := by
  simp only [construct, Option.ite_none_right_eq_some, Option.some.injEq, Bool.and_eq_true, Params.wellFormed,
    programWellFormed, wordsWellFormed_iff, decide_eq_true_eq, and_assoc]

/-- A constructed machine meets the invariant: its words are those of the program and the input. -/
theorem wf_ofProgram {p : Params} {prog : List Int} {source : InputDevice} (hwidth : 32 ≤ p.width)
    (hlen : prog.length ≤ p.maxSize) (hprog : ∀ v ∈ prog, Word.Fits p.width v)
    (hin : ∀ v ∈ source.inq, Word.Fits p.width v) : (State.ofProgram p prog source).Wf where
  width := hwidth
  canonical := Memory.wf_ofWords prog
  size := hlen
  memFits := fun c hc => hprog c.2 (mem_cellsOfWords hc).2.2.2
  pcFits := bit_fits hwidth (.inl rfl)
  inFits := hin
  outFits := nofun
  diag := nofun

/-- Settles O55: the fields of the state R112 constructs, and its memory word for word. -/
theorem constructionSetsEveryPieceOfState : Obligations.ConstructionSetsEveryPieceOfState := by
  intro p prog source s h
  obtain ⟨⟨hwidth, hlen, hprog, hin⟩, rfl⟩ := construct_eq_some_iff.1 h
  refine ⟨rfl, fun i hi => ?_, rfl, rfl, rfl, rfl, rfl, rfl, wf_ofProgram hwidth hlen hprog hin⟩
  exact (Memory.read_ofWords prog i).trans (List.getD_eq_getElem prog _ hi)

/-- The size bound of R7 without the subtraction of natural numbers. -/
theorem le_maxSize_iff {p : Params} (hwidth : 32 ≤ p.width) {n : Nat} : n ≤ p.maxSize ↔ n + 4 ≤ 2 ^ (p.width - 1) := by
  have hhalf : 4 ≤ 2 ^ (p.width - 1) := le_trans (by norm_num) (half_ge hwidth)
  unfold Params.maxSize
  omega

/-- Settles O56: the four checks of `construct`. -/
theorem constructionRefusesWhatDoesNotFit : Obligations.ConstructionRefusesWhatDoesNotFit := by
  intro p prog source
  simp only [construct_eq_some_iff, exists_and_left, exists_eq', and_true]
  exact and_congr_right fun hwidth => and_congr_left' (le_maxSize_iff hwidth)

/-! ## Feeding (R87, R108) -/

theorem feed_of_open {s : State} {ws : List Int} (hopen : s.inCh.inClosed = false)
    (hws : ∀ v ∈ ws, Word.Fits s.params.width v) : s.feed ws = some (s.setIn ⟨s.inCh.inq ++ ws, false⟩) := by
  simp [State.feed, hopen, wordsWellFormed_iff.2 hws]

theorem feed_of_closed {s : State} (hclosed : s.inCh.inClosed = true) (ws : List Int) : s.feed ws = none := by
  simp [State.feed, hclosed]

/-- Settles O57: the stall leaves the machine as it is, so that the same Input is fetched once a word has been fed. -/
theorem feedingEndsAStall : Obligations.FeedingEndsAStall := by
  intro m1 s v d hs hin hw hv
  have hq : s.inCh.inq = [] := by rw [hin]
  have hopen : s.inCh.inClosed = false := by rw [hin]
  have hfeed : s.feed [v] = some (s.setIn ⟨[v], false⟩) := by
    rw [feed_of_open hopen (List.forall_mem_singleton.2 hv), hq, List.nil_append]
  have hs' : (s.setIn ⟨[v], false⟩).Fetches (.input m1) := hs
  obtain ⟨u, hu, hstored, hempty⟩ := exec_input_stores (s := s.setIn ⟨[v], false⟩) m1 rfl hw
  exact ⟨(step_of_fetches hs).trans (exec_input_of_wait m1 hq (fun _ => ⟨d, hw⟩) hopen),
    _, u, hfeed, (step_of_fetches hs').trans hu, hstored, hempty⟩

theorem act_of_exhausted {s t : State} {a : HostAct} (h : s.inCh = ⟨[], true⟩) (hact : s.act a = some t) :
    t.inCh = ⟨[], true⟩ := by
  rcases State.act_cases hact with ⟨-, hstep⟩ | ⟨_, -, hopen, -, -⟩ | ⟨-, rfl⟩
  · have hclosed : t.inCh.inClosed = true := by rw [step_inClosed hstep, h]
    have hq : t.inCh.inq = [] := by
      rcases step_inq hstep with e | ⟨v, e⟩ <;> rw [h] at e
      · exact e
      · cases e
    exact congrArg₂ InputDevice.mk hq hclosed
  · rw [h] at hopen
    cases hopen
  · rw [h]
    rfl

/-- Settles O58, by induction on the acts: a step has nothing to pull, and the host can only close once more. -/
theorem exhaustedInputStaysExhausted : Obligations.ExhaustedInputStaysExhausted := by
  intro s t acts h hdrive
  have ht : t.inCh = ⟨[], true⟩ := drive_induction (P := fun s t => s.inCh = ⟨[], true⟩ → t.inCh = ⟨[], true⟩)
    (fun _ h => h) (fun _ _ _ _ hact ih h => ih (act_of_exhausted h hact)) acts s t hdrive h
  have hq : t.inCh.inq = [] := by rw [ht]
  have hclosed : t.inCh.inClosed = true := by rw [ht]
  exact ⟨ht, State.pull_exhausted hq hclosed, feed_of_closed hclosed⟩

/-! ## The status port (R27 to R29) -/

theorem statusPort_of_no_diag {s : State} (h : s.run.diag? = none) :
    s.statusPort = ⟨s.run.code, 0, none, none, none⟩ := by
  rw [State.statusPort, h]

theorem statusPort_of_faulted {s : State} {d : Diag} (h : s.run = .faulted d) :
    s.statusPort = ⟨2, d.faultCat.code, some d.faultPc, d.faultWord, some d.faultWord.isSome⟩ := by
  rw [State.statusPort, h]
  rfl

/-- Settles O59: the port in each run state. -/
theorem statusPortShowsTheCodes : Obligations.StatusPortShowsTheCodes := by
  refine fun s => ⟨fun h => ?_, fun h => ?_, fun d h => ?_⟩
  · rw [statusPort_of_no_diag (by rw [h]; rfl), h]
    rfl
  · rw [statusPort_of_no_diag (by rw [h]; rfl), h]
    rfl
  · rw [statusPort_of_faulted h]
    exact ⟨rfl, rfl, rfl, rfl, fun hcat => by rw [hcat]; rfl, fun hcat => by rw [hcat]; rfl,
      fun hcat => by rw [hcat]; rfl⟩

/-! ## Inspection and the result (R51, R115, R116) -/

theorem inspect_of_running {s : State} (h : s.run = .running) : s.inspect = none := by rw [State.inspect, h]

theorem inspect_of_terminal {s : State} (h : s.Terminal) : s.inspect = some (s.mem.toWords, s.run) := by
  unfold State.inspect
  rcases hr : s.run with _ | _ | d
  · exact absurd hr h
  · rfl
  · rfl

theorem toWords_length (m : Memory) : m.toWords.length = m.size := by simp [Memory.toWords]

theorem getElem_toWords (m : Memory) (i : Nat) (h : i < m.toWords.length) : m.toWords[i] = m.read i := by
  simp [Memory.toWords]

/-- The result says nothing of the input. -/
theorem result_setIn (s : State) (dev : InputDevice) : (s.setIn dev).result = s.result := rfl

/-- The acts of a run after its first `n`, made from the state those lead to. -/
theorem runAt_add {s t : State} {acts : Nat → HostAct} {n : Nat} (ht : s.runAt acts n = some t) (k : Nat) :
    s.runAt acts (n + k) = t.drive ((List.range k).map fun j => acts (n + j)) := by
  have hsplit : (List.range (n + k)).map acts =
      (List.range n).map acts ++ (List.range k).map fun j => acts (n + j) := by
    rw [List.range_add, List.map_append, List.map_map]
    rfl
  unfold State.runAt at ht ⊢
  rw [hsplit, State.drive_append, ht, Option.bind_some]

/-- Once a run has ended, its result stays. -/
theorem result_of_runAt_le {s t u : State} {acts : Nat → HostAct} {n m : Nat} (hnm : n ≤ m)
    (ht : s.runAt acts n = some t) (hu : s.runAt acts m = some u) (hterm : t.Terminal) : u.result = t.result := by
  obtain ⟨k, rfl⟩ := Nat.exists_eq_add_of_le hnm
  rw [runAt_add ht] at hu
  rw [drive_of_terminal _ hterm hu, result_setIn]

/-- Settles O60: inspection by the run state, and one result because the later of two ends is the earlier one but for
its input. -/
theorem inspectionGivesTheFinalState : Obligations.InspectionGivesTheFinalState := by
  refine ⟨fun s => ⟨fun hr => ?_, fun hterm => ?_⟩, fun s t u acts n m ht hu hterm hterm' => ?_⟩
  · have h := inspect_of_running hr
    exact ⟨h, by rw [State.result, h, Option.map_none]⟩
  · have h := inspect_of_terminal hterm
    exact ⟨s.mem.toWords, h, by rw [State.result, h, Option.map_some], toWords_length s.mem, getElem_toWords s.mem⟩
  · rcases le_total n m with hnm | hmn
    · exact (result_of_runAt_le hnm ht hu hterm).symm
    · exact result_of_runAt_le hmn hu ht hterm'

end Sys2Proof.Proofs.HostPort
end
